-- ==== Sys2Proof/Config.lean ====
section
/-! DEFINITION. The configuration `Cfg` of rule R10: what an implementation fixes and the spec leaves OPEN, its
well-formedness (R119), and the one configuration this machine has, every OPEN value of which is an opaque
constant with no body (log entry 1). -/

namespace Sys2Proof

/-- A positive real: what R10 says FS_HZ and ATT_UNIT_DB are. The value after `:=` only shows that there is one. -/
structure PosReal where
  val : ℝ := 1
  pos : 0 < val := by exact zero_lt_one
deriving Inhabited

/-- The configuration, field by field as R10 lists it. A table is a function of its indices and is read only at the
indices R51 gives it. Constant for the life of a CORE instance (R11). -/
structure Cfg where
  /-- PHASE_BITS, written N: the width of ACC and INC -/
  phaseBits : Nat
  /-- FIXED_SHIFT -/
  fixedShift : Nat
  /-- DT_ROWS: how many detune indices the table has (R105) -/
  dtRows : Nat
  /-- DT_INC[d][k], signed, in increment units before multiplication (R103, R106) -/
  dtInc : Nat → Nat → Int
  /-- MULT2[m]: twice the multiplier (R108) -/
  mult2 : Nat → Nat
  /-- VIB_INC(inc, depth, vphase) (R114) -/
  vibInc : Nat → Nat → Nat → Nat
  /-- MAXATT: full silence in integer attenuation units -/
  maxAtt : Nat
  /-- ENV_FRAC_BITS, written F: the fraction bits of LEVEL -/
  envFracBits : Nat
  /-- STEP[r], in units of 2^-F of an attenuation unit (R111) -/
  step : Nat → Nat
  /-- KSR_ADJ[ksr][k] (R110) -/
  ksrAdj : Nat → Nat → Nat
  /-- SL_MAP[s] (R113) -/
  slMap : Nat → Nat
  /-- KSL_ATT_FN(ksl, block, fnum) (R109) -/
  kslAttFn : Nat → Nat → Nat → Nat
  /-- KSL_FNUM_BITS: how many top bits of fnum the curve reads (R109) -/
  kslFnumBits : Nat
  /-- AM_ATT(amDepth, amDam, lfoIn) (R117) -/
  amAtt : Nat → Nat → Nat → Nat
  /-- DAMP_TICKS: the length of Damp in GETENV calls -/
  dampTicks : Nat
  /-- FS_HZ, a positive real, interpretive: read by no rule of behaviour (R10, R118) -/
  fsHz : PosReal
  /-- ATT_UNIT_DB, a positive real, interpretive: read by no rule of behaviour (R10, R118) -/
  attUnitDb : PosReal

/-- PMOD = 2^N, the accumulator's full range (R12). -/
def Cfg.pmod (c : Cfg) : Nat := 2 ^ c.phaseBits

/-- LMAX = MAXATT * 2^F, LEVEL at full silence (R12). -/
def Cfg.lmax (c : Cfg) : Nat := c.maxAtt * 2 ^ c.envFracBits

/-- A well-formed configuration (R119), clause by clause. R10's constraint on the two interpretive constants, which R119 does
not list, is their type (log entry 13). -/
structure Cfg.Wf (c : Cfg) : Prop where
  phaseBits_pos : 1 ≤ c.phaseBits
  dtRows_ge : 4 ≤ c.dtRows
  dtRows_le : c.dtRows ≤ 256
  dtInc_zero : ∀ k ≤ 15, c.dtInc 0 k = 0
  mult2_zero : c.mult2 0 = 1
  mult2_eq : ∀ m, 1 ≤ m → m ≤ 8 → c.mult2 m = 2 * m
  vibInc_lt : ∀ inc < c.pmod, ∀ depth ≤ 65535, ∀ vphase ≤ 65535, c.vibInc inc depth vphase < c.pmod
  vibInc_depth_zero : ∀ inc < c.pmod, ∀ vphase ≤ 65535, c.vibInc inc 0 vphase = inc
  maxAtt_pos : 1 ≤ c.maxAtt
  step_zero : c.step 0 = 0
  slMap_le : ∀ s ≤ 15, c.slMap s ≤ c.maxAtt
  slMap_top : c.slMap 15 = c.maxAtt
  kslFnumBits_pos : 1 ≤ c.kslFnumBits
  kslFnumBits_le : c.kslFnumBits ≤ 10
  kslAttFn_off : ∀ block ≤ 7, ∀ fnum ≤ 1023, c.kslAttFn 0 block fnum = 0
  kslAttFn_top : ∀ ksl ≤ 3, ∀ block ≤ 7, ∀ f1 ≤ 1023, ∀ f2 ≤ 1023,
    f1 >>> (10 - c.kslFnumBits) = f2 >>> (10 - c.kslFnumBits) → c.kslAttFn ksl block f1 = c.kslAttFn ksl block f2
  amAtt_off : ∀ amDam ≤ 65535, ∀ lfoIn ≤ 65535, c.amAtt 0 amDam lfoIn = 0

/-- The OPEN values of R10, each in a type that holds every value R10 and R119 allow it and no other: a table's fixed
entries are left to `Cfg.ofOpen`. -/
structure OpenValues where
  /-- N - 1 -/
  phaseBitsPred : Nat
  fixedShift : Nat
  /-- DT_ROWS - 4 -/
  dtRowsExtra : Fin 253
  /-- rows 1 and up -/
  dtInc : Nat → Nat → Int
  /-- entries 9 and up -/
  mult2 : Nat → Nat
  /-- at depth 1 and up, before reduction to the range -/
  vibInc : Nat → Nat → Nat → Nat
  /-- MAXATT - 1 -/
  maxAttPred : Nat
  envFracBits : Nat
  /-- entries 1 and up -/
  step : Nat → Nat
  ksrAdj : Nat → Nat → Nat
  /-- entries 0 to 14, before the bound MAXATT -/
  slMap : Nat → Nat
  /-- at ksl 1 and up, of the TOP bits of fnum -/
  kslAtt : Nat → Nat → Nat → Nat
  /-- KSL_FNUM_BITS - 1 -/
  kslFnumBitsPred : Fin 10
  /-- at amDepth 1 and up -/
  amAtt : Nat → Nat → Nat → Nat
  fsHz : PosReal
  attUnitDb : PosReal
deriving Inhabited

/-- The configuration with the given OPEN values: what R103 to R117 fix, and DAMP_TICKS at the spec's value 1
(R10, D21; log entry 2). -/
def Cfg.ofOpen (o : OpenValues) : Cfg where
  phaseBits := o.phaseBitsPred + 1
  fixedShift := o.fixedShift
  dtRows := o.dtRowsExtra.val + 4
  dtInc d k := if d = 0 then 0 else o.dtInc d k
  mult2 m := if m = 0 then 1 else if m ≤ 8 then 2 * m else o.mult2 m
  vibInc inc depth vphase := if depth = 0 then inc else o.vibInc inc depth vphase % 2 ^ (o.phaseBitsPred + 1)
  maxAtt := o.maxAttPred + 1
  envFracBits := o.envFracBits
  step r := if r = 0 then 0 else o.step r
  ksrAdj := o.ksrAdj
  slMap s := if s = 15 then o.maxAttPred + 1 else min (o.slMap s) (o.maxAttPred + 1)
  kslAttFn ksl block fnum := if ksl = 0 then 0 else o.kslAtt ksl block (fnum >>> (10 - (o.kslFnumBitsPred.val + 1)))
  kslFnumBits := o.kslFnumBitsPred.val + 1
  amAtt amDepth amDam lfoIn := if amDepth = 0 then 0 else o.amAtt amDepth amDam lfoIn
  dampTicks := 1
  fsHz := o.fsHz
  attUnitDb := o.attUnitDb

/-- The OPEN values of this machine. NO BODY: nothing can be proved of them but what their types say, so a claim about
the machine holds for every configuration R10 allows (log entry 1). -/
opaque Config.openValues : OpenValues

/-- The configuration of this machine (R10, R11). -/
def Config.cfg : Cfg := Cfg.ofOpen Config.openValues

end Sys2Proof
end

