-- ==== Sys2Proof/Word.lean ====
section
/-! DEFINITION. The words CORE's driver transfers: the 64-bit command word (R71) and the byte a harness stores it in (R53). -/

namespace Sys2Proof

/-- One command word, transferred whole (R53, R71). -/
abbrev CommandWord := BitVec 64

/-- One byte of a stored command word (R53). -/
abbrev Byte := BitVec 8

end Sys2Proof
end

