-- ==== Sys2Proof/Syntax.lean ====
section
/-! DEFINITION. The twelve commands of rule R74 as syntax: their opcodes' names, their formats (R72), and the
abstract command with its operands as naturals (R70). -/

namespace Sys2Proof

/-- The twelve rows of the opcode map, in its order (R74). -/
inductive Op where
  | setfreq
  | pgkeyon
  | getphase
  | setatt
  | setar
  | setdr
  | setsl
  | setsr
  | setrr
  | egkeyon
  | egkeyoff
  | getenv
deriving DecidableEq, Repr

/-- The four formats: which operand fields a command uses (R72). -/
inductive Format where
  /-- no operand -/
  | z
  /-- operand a -/
  | s
  /-- operands a, b, c -/
  | t
  /-- operands a, b, c, d -/
  | f
deriving DecidableEq, Repr

/-- The abstract command, the normative level (R70): a constructor for each row of R74 applied to its operands,
in the order a, b, c, d. Whether an operand fits its field is `Instr.wellFormed`; whether it is in its legal
range is the command's own check (R73, R78). -/
inductive Instr where
  | setfreq (fnum block multiple detuneIndex : Nat)
  | pgkeyon
  | getphase (vdepth vphase fbin : Nat)
  | setatt (fnum block ksl : Nat)
  | setar (rate ksr ksn : Nat)
  | setdr (rate ksr ksn : Nat)
  | setsl (sl : Nat)
  | setsr (rate ksr ksn : Nat)
  | setrr (rate ksr ksn : Nat)
  | egkeyon
  | egkeyoff
  | getenv (amDepth amDam lfoIn : Nat)
deriving DecidableEq, Repr

end Sys2Proof
end

