-- ==== Sys2Proof/WellFormed.lean ====
section
/-! DEFINITION. Which abstract commands can be encoded: each operand fits its field, 16 bits for a, b and c and
8 bits for d (R71, R84, R86). -/

namespace Sys2Proof

/-- An operand of the fields a, b or c fits 16 bits (R71; R86: "above 65535 for a, b, c"). -/
def fitsWide (v : Nat) : Bool := decide (v < 65536)

/-- An operand of the field d fits 8 bits (R71; R86: "above 255 for d"). -/
def fitsNarrow (v : Nat) : Bool := decide (v < 256)

/-- Every operand of the command fits its field (R84: encoding "is defined for every abstract command whose
operands fit their fields"). -/
def Instr.wellFormed : Instr → Bool
  | .setfreq fnum block multiple detuneIndex =>
    fitsWide fnum && fitsWide block && fitsWide multiple && fitsNarrow detuneIndex
  | .pgkeyon => true
  | .getphase vdepth vphase fbin => fitsWide vdepth && fitsWide vphase && fitsWide fbin
  | .setatt fnum block ksl => fitsWide fnum && fitsWide block && fitsWide ksl
  | .setar rate ksr ksn => fitsWide rate && fitsWide ksr && fitsWide ksn
  | .setdr rate ksr ksn => fitsWide rate && fitsWide ksr && fitsWide ksn
  | .setsl sl => fitsWide sl
  | .setsr rate ksr ksn => fitsWide rate && fitsWide ksr && fitsWide ksn
  | .setrr rate ksr ksn => fitsWide rate && fitsWide ksr && fitsWide ksn
  | .egkeyon => true
  | .egkeyoff => true
  | .getenv amDepth amDam lfoIn => fitsWide amDepth && fitsWide amDam && fitsWide lfoIn

end Sys2Proof
end

