-- ==== Sys2Proof/Decode.lean ====
section
/-! DEFINITION. The command word: its fields (R71), formats (R72), opcode map (R74), the total decoder and the
encoder (R84), and the byte form of a harness (R53). -/

namespace Sys2Proof

/-- Why a word, or a string of bytes, is no command. -/
inductive DecodeError where
  /-- the opcode is none of the twelve (R75) -/
  | reservedOpcode (op : BitVec 8)
  /-- a field the command's format does not use holds a nonzero bit (R76) -/
  | nonzeroUnusedField (op : Op)
  /-- a command word is exactly eight bytes (R71, R79) -/
  | wrongByteCount (n : Nat)
deriving DecidableEq, Repr

/-- The opcode number of a row (R74). -/
def Op.code : Op → BitVec 8
  | .setfreq => 0x01
  | .pgkeyon => 0x02
  | .getphase => 0x03
  | .setatt => 0x10
  | .setar => 0x11
  | .setdr => 0x12
  | .setsl => 0x13
  | .setsr => 0x14
  | .setrr => 0x15
  | .egkeyon => 0x16
  | .egkeyoff => 0x17
  | .getenv => 0x18

/-- The format of a row (R74). -/
def Op.format : Op → Format
  | .setfreq => .f
  | .pgkeyon => .z
  | .getphase => .t
  | .setatt => .t
  | .setar => .t
  | .setdr => .t
  | .setsl => .s
  | .setsr => .t
  | .setrr => .t
  | .egkeyon => .z
  | .egkeyoff => .z
  | .getenv => .t

/-- The rows of the opcode map, in its order (R74). -/
def Op.all : List Op :=
  [.setfreq, .pgkeyon, .getphase, .setatt, .setar, .setdr, .setsl, .setsr, .setrr, .egkeyon, .egkeyoff, .getenv]

/-- The row whose opcode is `code`, if any (R74, R75). -/
def Op.ofCode (code : BitVec 8) : Option Op := Op.all.find? (fun o => o.code == code)

/-- The bits of a word of this format that must match (R72). -/
def Format.mask : Format → CommandWord
  | .z => 0xFFFFFFFFFFFFFFFF
  | .s => 0xFF0000FFFFFFFFFF
  | .t => 0xFF000000000000FF
  | .f => 0xFF00000000000000

/-- What the masked bits must equal: `match = op << 56` (R72). -/
def Op.matchWord (o : Op) : CommandWord := BitVec.ofNat 64 (o.code.toNat <<< 56)

/-- Field `op`, bits 63:56 (R71). -/
def fieldOp (w : CommandWord) : BitVec 8 := w.extractLsb' 56 8
/-- Field `a`, bits 55:40, as the unsigned operand it stands for (R71, R73). -/
def fieldA (w : CommandWord) : Nat := (w.extractLsb' 40 16).toNat
/-- Field `b`, bits 39:24 (R71, R73). -/
def fieldB (w : CommandWord) : Nat := (w.extractLsb' 24 16).toNat
/-- Field `c`, bits 23:8 (R71, R73). -/
def fieldC (w : CommandWord) : Nat := (w.extractLsb' 8 16).toNat
/-- Field `d`, bits 7:0 (R71, R73). -/
def fieldD (w : CommandWord) : Nat := (w.extractLsb' 0 8).toNat

/-- The row's constructor applied to the fields its format uses (R74, R84 (4)). -/
def Op.instr (a b c d : Nat) : Op → Instr
  | .setfreq => .setfreq a b c d
  | .pgkeyon => .pgkeyon
  | .getphase => .getphase a b c
  | .setatt => .setatt a b c
  | .setar => .setar a b c
  | .setdr => .setdr a b c
  | .setsl => .setsl a
  | .setsr => .setsr a b c
  | .setrr => .setrr a b c
  | .egkeyon => .egkeyon
  | .egkeyoff => .egkeyoff
  | .getenv => .getenv a b c

/-- The decoder, total on words: the four steps of R84. -/
def decode (w : CommandWord) : Except DecodeError Instr :=
  match Op.ofCode (fieldOp w) with
  | none => .error (.reservedOpcode (fieldOp w))
  | some o =>
    if w &&& o.format.mask = o.matchWord then
      .ok (o.instr (fieldA w) (fieldB w) (fieldC w) (fieldD w))
    else
      .error (.nonzeroUnusedField o)

/-- The row of a command (R74). -/
def Instr.op : Instr → Op
  | .setfreq _ _ _ _ => .setfreq
  | .pgkeyon => .pgkeyon
  | .getphase _ _ _ => .getphase
  | .setatt _ _ _ => .setatt
  | .setar _ _ _ => .setar
  | .setdr _ _ _ => .setdr
  | .setsl _ => .setsl
  | .setsr _ _ _ => .setsr
  | .setrr _ _ _ => .setrr
  | .egkeyon => .egkeyon
  | .egkeyoff => .egkeyoff
  | .getenv _ _ _ => .getenv

/-- The operands a, b, c, d of a command, zero in every field its format does not use (R72, R84). -/
def Instr.operands : Instr → Nat × Nat × Nat × Nat
  | .setfreq fnum block multiple detuneIndex => (fnum, block, multiple, detuneIndex)
  | .pgkeyon => (0, 0, 0, 0)
  | .getphase vdepth vphase fbin => (vdepth, vphase, fbin, 0)
  | .setatt fnum block ksl => (fnum, block, ksl, 0)
  | .setar rate ksr ksn => (rate, ksr, ksn, 0)
  | .setdr rate ksr ksn => (rate, ksr, ksn, 0)
  | .setsl sl => (sl, 0, 0, 0)
  | .setsr rate ksr ksn => (rate, ksr, ksn, 0)
  | .setrr rate ksr ksn => (rate, ksr, ksn, 0)
  | .egkeyon => (0, 0, 0, 0)
  | .egkeyoff => (0, 0, 0, 0)
  | .getenv amDepth amDam lfoIn => (amDepth, amDam, lfoIn, 0)

/-- `word = (op << 56) | (a << 40) | (b << 24) | (c << 8) | d` (R71). -/
def packWord (op a b c d : Nat) : CommandWord :=
  BitVec.ofNat 64 ((op <<< 56) ||| (a <<< 40) ||| (b <<< 24) ||| (c <<< 8) ||| d)

/-- The encoder, meant for a well-formed command (R71, R84). -/
def encode (i : Instr) : CommandWord :=
  packWord i.op.code.toNat i.operands.1 i.operands.2.1 i.operands.2.2.1 i.operands.2.2.2

/-- A word as a harness stores it: eight bytes, most significant first (R53). -/
def wordBytes (w : CommandWord) : List Byte :=
  [w.extractLsb' 56 8, w.extractLsb' 48 8, w.extractLsb' 40 8, w.extractLsb' 32 8,
   w.extractLsb' 24 8, w.extractLsb' 16 8, w.extractLsb' 8 8, w.extractLsb' 0 8]

/-- The number that bytes stand for, most significant first (R53). -/
def bytesToNat (bs : List Byte) : Nat := bs.foldl (fun n b => n * 256 + b.toNat) 0

/-- The decoder, total on strings of bytes (R53, R79). -/
def decodeBytes (bs : List Byte) : Except DecodeError Instr :=
  if bs.length = 8 then decode (BitVec.ofNat 64 (bytesToNat bs)) else .error (.wrongByteCount bs.length)

/-- The word of `nbits` bits whose value is `w`, every bit above `nbits` zero. -/
def tableWord (nbits w : Nat) : CommandWord := BitVec.ofNat 64 (w % 2 ^ nbits)

/-- What the decoder reads from a word numbered as spec/opcode_table.json numbers it (bit 0 the least significant
bit of the one 64-bit word), by way of the bytes a harness stores (R53). -/
def decodeTableWord (nbits w : Nat) : Option Instr := (decodeBytes (wordBytes (tableWord nbits w))).toOption

end Sys2Proof
end

