-- ==== Sys2Proof/Machine/State.lean ====
section
/-! DEFINITION. The state of one CORE instance (R20 to R28), the response and the inputs that the model carries beside it
(log entries 3, 4, 6), the reasons a step can stop, and the state after reset (R32, R241). -/

namespace Sys2Proof.Machine

open Sys2Proof

/-- The six stages that STAGE can hold (R26, R160); its codes 6 and 7 are never held and cannot be written here (U13). -/
inductive Stage where
  | idle
  | attack
  | decay
  | sustain
  | release
  | damp
deriving DecidableEq, Repr

/-- The phase generator's registers (R20, R21, R24). A register whose width depends on `Cfg` is a natural, its bound a
part of the invariant (log entry 11). -/
structure PhaseRegs where
  fnum : BitVec 10
  block : BitVec 3
  mult : BitVec 4
  /-- DT, in 0..DT_ROWS-1 -/
  dt : Nat
  ksn : BitVec 4
  /-- INC, N bits -/
  inc : Nat
  /-- ACC, N bits -/
  acc : Nat
deriving DecidableEq, Repr

/-- The envelope generator's registers (R20, R21, R25, R26, R27). -/
structure EnvRegs where
  stage : Stage
  /-- LEVEL, in 0..LMAX, F fraction bits (R161) -/
  level : Nat
  /-- DAMPCNT, in 0..DAMP_TICKS -/
  dampCnt : Nat
  ar : BitVec 6
  dr : BitVec 6
  sr : BitVec 6
  rr : BitVec 6
  /-- SL, in 0..MAXATT -/
  sl : Nat
  /-- KSLATT, any value of KSL_ATT_FN -/
  kslAtt : Nat
deriving DecidableEq, Repr

/-- The status of a response: OK or INVALID_PARAMETER (R80). -/
inductive Status where
  | ok
  | invalidParameter
deriving DecidableEq, Repr

/-- The response of one command (R80). -/
structure Response where
  status : Status
  /-- the position of the first offending operand, or 0 -/
  info : BitVec 3
  /-- PHASE_OUT, ENV_OUT or 0 -/
  data : Nat
deriving DecidableEq, Repr

/-- What can be presented to CORE from outside: a command word at the command port (R3), or RESET (R240). -/
inductive Input where
  | command (word : CommandWord)
  | reset
deriving DecidableEq, Repr

/-- The machine. `pg` and `eg` are all the state CORE has (R20). `response` is the response returned by the step just
taken, if it returned one (log entry 3). `inputs` is what the driver will present, in order (R22; log entry 4). -/
structure State where
  pg : PhaseRegs
  eg : EnvRegs
  response : Option Response
  inputs : List Input
deriving DecidableEq, Repr

/-- There is no fault: CORE "never stops of its own accord" (R255), its one exception InvalidParameter is a response after
which CORE goes on (R214, R215; log entry 8), and no access has an address (R54). -/
inductive Fault
deriving DecidableEq, Repr

/-- Why the model gives no next state. -/
inductive Refusal where
  /-- raised by an arm of `exec` whose command has no meaning yet; safe. No arm is left so. -/
  | notModelled (mnemonic : String)
  /-- raised by `step` on a word that is no legal command (R75, R76), to which the spec "gives ... no meaning" and which "the
  model refuses" (R77); safe. -/
  | illegalWord (e : DecodeError)
deriving DecidableEq, Repr

/-- The phase generator after reset (R32). -/
def PhaseRegs.reset : PhaseRegs where
  fnum := 0
  block := 0
  mult := 0
  dt := 0
  ksn := 0
  inc := 0
  acc := 0

/-- The envelope generator after reset (R32). -/
def EnvRegs.reset (c : Cfg) : EnvRegs where
  stage := .idle
  level := c.lmax
  dampCnt := 0
  ar := 0
  dr := 0
  sr := 0
  rr := 0
  sl := c.slMap 0
  kslAtt := 0

/-- The machine after reset under the configuration `c` (R32, R241), nothing returned and nothing presented yet. -/
def State.resetWith (c : Cfg) : State where
  pg := PhaseRegs.reset
  eg := EnvRegs.reset c
  response := none
  inputs := []

/-- The machine right after reset (R32, R241). -/
def State.reset : State := State.resetWith Config.cfg

end Sys2Proof.Machine
end

