-- ==== Sys2Proof/Machine/Flags.lean ====
section
/-! DEFINITION. CORE has no condition codes, no sticky error and no status register (R23): what stands in their place is the
status, info and data of a command's response (R80, R81), and the 3-bit code of STAGE (R26). -/

namespace Sys2Proof.Machine

open Sys2Proof

/-- The status bit of a response (R80). -/
def Status.code : Status → BitVec 1
  | .ok => 0
  | .invalidParameter => 1

/-- The response of a command that completed and returns `data` (R14, R80, R81). -/
def Response.okWith (data : Nat) : Response := ⟨.ok, 0, data⟩

/-- The response of `raise InvalidParameter(k)` (R211). -/
def Response.invalid (k : BitVec 3) : Response := ⟨.invalidParameter, k, 0⟩

/-- The width of the response's data field: max(N, bits of MAXATT) (R80). -/
def dataBits (c : Cfg) : Nat := max c.phaseBits (Nat.log2 c.maxAtt + 1)

/-- The encoding of STAGE (R26). -/
def Stage.code : Stage → BitVec 3
  | .idle => 0
  | .attack => 1
  | .decay => 2
  | .sustain => 3
  | .release => 4
  | .damp => 5

end Sys2Proof.Machine
end

