-- ==== Sys2Proof/Machine/Ops.lean ====
section
/-! DEFINITION. The operations every meaning shares: writing a group of registers, returning a response, raising
InvalidParameter, a setter as a check followed by a write, and RESET. CORE has no memory (R50), so there is no memory
operation, and nothing to return from after an exception (R215). -/

namespace Sys2Proof.Machine

open Sys2Proof

/-- Write phase generator registers. -/
def State.mapPhase (f : PhaseRegs → PhaseRegs) (s : State) : State := { s with pg := f s.pg }

/-- Write envelope generator registers. -/
def State.mapEnv (f : EnvRegs → EnvRegs) (s : State) : State := { s with eg := f s.eg }

/-- The response leaves CORE (R80). -/
def State.withResponse (r : Response) (s : State) : State := { s with response := some r }

/-- `return v`: the command completed, and v is the data of its response (R14, R81). -/
def returnOk (data : Nat) (s : State) : State := s.withResponse (Response.okWith data)

/-- Taking the one exception, `raise InvalidParameter(k)`: it saves nothing, changes no mode, transfers control nowhere and
writes no register; its whole effect is the response (R210, R211, R214). -/
def raiseInvalidParameter (k : BitVec 3) (s : State) : State := s.withResponse (Response.invalid k)

/-- A setter: `offending` is the position of the first operand out of range, found before any write (R213, R214). -/
def completeSetter (offending : Option (BitVec 3)) (write : State → State) (s : State) : State :=
  match offending with
  | some k => raiseInvalidParameter k s
  | none => returnOk 0 (write s)

/-- Asserting RESET puts every register into its reset state whatever the state was (R240). It is no command and has no
response; what the driver presents next is the driver's (log entry 6). -/
def assertReset (c : Cfg) (s : State) : State :=
  { s with pg := PhaseRegs.reset, eg := EnvRegs.reset c, response := none }

/-- A step in which nothing is presented: no register changes and nothing is returned (R19, R217; log entry 5). -/
def awaitCommand (s : State) : State := { s with response := none }

end Sys2Proof.Machine
end

