-- ==== Sys2Proof/Machine/Operands.lean ====
section
/-! DEFINITION. The checks of the seven setters: the position of the first operand outside its legal range, in the order
a, b, c, d (R212, R213). Every operand is an immediate natural (R73): there is no other operand form. -/

namespace Sys2Proof.Machine

open Sys2Proof

/-- SETFREQ (R132). -/
def checkSetfreq (c : Cfg) (fnum block multiple detuneIndex : Nat) : Option (BitVec 3) :=
  if fnum > 1023 then some 1
  else if block > 7 then some 2
  else if multiple > 15 then some 3
  else if detuneIndex ≥ c.dtRows then some 4
  else none

/-- SETATT (R163). -/
def checkSetatt (fnum block ksl : Nat) : Option (BitVec 3) :=
  if fnum > 1023 then some 1
  else if block > 7 then some 2
  else if ksl > 3 then some 3
  else none

/-- SETAR, SETDR, SETSR and SETRR (R164, R165, R167, R168). -/
def checkRate (rate ksr ksn : Nat) : Option (BitVec 3) :=
  if rate > 15 then some 1
  else if ksr > 1 then some 2
  else if ksn > 15 then some 3
  else none

/-- SETSL (R166). -/
def checkSetsl (sl : Nat) : Option (BitVec 3) :=
  if sl > 15 then some 1 else none

end Sys2Proof.Machine
end

