-- ==== Sys2Proof/Machine/EnvelopeSetters.lean ====
section
/-! DEFINITION. The envelope generator's setters SETATT, SETAR, SETDR, SETSL, SETSR and SETRR (R162 to R169), each first
for any configuration and then, as the meaning, for this machine's. -/

namespace Sys2Proof.Machine

open Sys2Proof

/-- The actual-rate function ACT (R162; its factor 4 is log entry 16). -/
def actualRate (c : Cfg) (rate ksr ksn : Nat) : Nat :=
  if rate = 0 then 0 else min 63 (4 * rate + c.ksrAdj ksr ksn)

/-- An actual rate as its 6-bit register holds it (R25). -/
def rateRegister (c : Cfg) (rate ksr ksn : Nat) : BitVec 6 := BitVec.ofNat 6 (actualRate c rate ksr ksn)

/-- SETATT: `KSLATT <- KSL_ATT_FN(ksl, block, fnum)` (R163). -/
def setatt (c : Cfg) (fnum block ksl : Nat) (s : State) : State :=
  completeSetter (checkSetatt fnum block ksl)
    (State.mapEnv fun e => { e with kslAtt := c.kslAttFn ksl block fnum }) s

/-- SETAR: `AR <- ACT(rate, ksr, ksn)`, the ksn operand used as given (R164). -/
def setar (c : Cfg) (rate ksr ksn : Nat) (s : State) : State :=
  completeSetter (checkRate rate ksr ksn) (State.mapEnv fun e => { e with ar := rateRegister c rate ksr ksn }) s

/-- SETDR (R165). -/
def setdr (c : Cfg) (rate ksr ksn : Nat) (s : State) : State :=
  completeSetter (checkRate rate ksr ksn) (State.mapEnv fun e => { e with dr := rateRegister c rate ksr ksn }) s

/-- SETSL: `SL <- SL_MAP[sl]` (R166). -/
def setsl (c : Cfg) (sl : Nat) (s : State) : State :=
  completeSetter (checkSetsl sl) (State.mapEnv fun e => { e with sl := c.slMap sl }) s

/-- SETSR (R167). -/
def setsr (c : Cfg) (rate ksr ksn : Nat) (s : State) : State :=
  completeSetter (checkRate rate ksr ksn) (State.mapEnv fun e => { e with sr := rateRegister c rate ksr ksn }) s

/-- SETRR (R168). -/
def setrr (c : Cfg) (rate ksr ksn : Nat) (s : State) : State :=
  completeSetter (checkRate rate ksr ksn) (State.mapEnv fun e => { e with rr := rateRegister c rate ksr ksn }) s

/-- The meaning of SETATT (R163). -/
def execSetatt (fnum block ksl : Nat) (s : State) : Host.Outcome State Fault Refusal :=
  .next (setatt Config.cfg fnum block ksl s)

/-- The meaning of SETAR (R164). -/
def execSetar (rate ksr ksn : Nat) (s : State) : Host.Outcome State Fault Refusal :=
  .next (setar Config.cfg rate ksr ksn s)

/-- The meaning of SETDR (R165). -/
def execSetdr (rate ksr ksn : Nat) (s : State) : Host.Outcome State Fault Refusal :=
  .next (setdr Config.cfg rate ksr ksn s)

/-- The meaning of SETSL (R166). -/
def execSetsl (sl : Nat) (s : State) : Host.Outcome State Fault Refusal := .next (setsl Config.cfg sl s)

/-- The meaning of SETSR (R167). -/
def execSetsr (rate ksr ksn : Nat) (s : State) : Host.Outcome State Fault Refusal :=
  .next (setsr Config.cfg rate ksr ksn s)

/-- The meaning of SETRR (R168). -/
def execSetrr (rate ksr ksn : Nat) (s : State) : Host.Outcome State Fault Refusal :=
  .next (setrr Config.cfg rate ksr ksn s)

end Sys2Proof.Machine
end

