-- ==== Sys2Proof/Machine/EnvelopeStages.lean ====
section
/-! DEFINITION. The envelope generator's stage machine: the key events EGKEYON and EGKEYOFF (R170, R171) and the sample step
GETENV (R172 to R182), each first for any configuration and then, as the meaning, for this machine's. -/

namespace Sys2Proof.Machine

open Sys2Proof

/-- Key-on: LEVEL to full silence; Attack if it was silent already or there is no damp, else Damp (R170). -/
def keyOnEnv (c : Cfg) (e : EnvRegs) : EnvRegs :=
  if e.level = c.lmax ∨ c.dampTicks = 0 then
    { e with level := c.lmax, stage := .attack, dampCnt := 0 }
  else
    { e with level := c.lmax, stage := .damp, dampCnt := c.dampTicks }

/-- Key-off: Release from every stage but Idle, LEVEL kept (R171). -/
def keyOffEnv (e : EnvRegs) : EnvRegs :=
  if e.stage = .idle then e else { e with stage := .release, dampCnt := 0 }

/-- GETENV in Idle (R173). -/
def idleSample (e : EnvRegs) : EnvRegs := { e with stage := .idle, dampCnt := 0 }

/-- GETENV in Damp (R174). DAMPCNT is at least 1 here by the invariant (log entry 12). -/
def dampSample (e : EnvRegs) : EnvRegs :=
  { e with dampCnt := e.dampCnt - 1, stage := if e.dampCnt - 1 = 0 then .attack else .damp }

/-- GETENV in Attack: `LEVEL' = max(0, LEVEL - STEP[AR])`, the subtraction of naturals being that clamp (R175, R189). -/
def attackSample (c : Cfg) (e : EnvRegs) : EnvRegs :=
  let level' := e.level - c.step e.ar.toNat
  { e with level := level', stage := if level' = 0 then .decay else .attack, dampCnt := 0 }

/-- GETENV in Decay, with `SLfp = SL << F` (R176). -/
def decaySample (c : Cfg) (e : EnvRegs) : EnvRegs :=
  let slfp := e.sl <<< c.envFracBits
  let level' := max e.level (min (e.level + c.step e.dr.toNat) slfp)
  { e with level := level', stage := if slfp ≤ level' then .sustain else .decay, dampCnt := 0 }

/-- GETENV in Sustain (R177). -/
def sustainSample (c : Cfg) (e : EnvRegs) : EnvRegs :=
  let level' := min (e.level + c.step e.sr.toNat) c.lmax
  { e with level := level', stage := if level' = c.lmax then .idle else .sustain, dampCnt := 0 }

/-- GETENV in Release (R178). -/
def releaseSample (c : Cfg) (e : EnvRegs) : EnvRegs :=
  let level' := min (e.level + c.step e.rr.toNat) c.lmax
  { e with level := level', stage := if level' = c.lmax then .idle else .release, dampCnt := 0 }

/-- The step of the stage held at the start of a GETENV, with that stage's current rate register (R172, R179, R182). -/
def advanceEnv (c : Cfg) (e : EnvRegs) : EnvRegs :=
  match e.stage with
  | .idle => idleSample e
  | .damp => dampSample e
  | .attack => attackSample c e
  | .decay => decaySample c e
  | .sustain => sustainSample c e
  | .release => releaseSample c e

/-- `ENV_OUT(L, k, a, b, c) = min(MAXATT, (L >> F) + k + AM_ATT(a, b, c))` (R180). -/
def envOut (c : Cfg) (level kslAtt amDepth amDam lfoIn : Nat) : Nat :=
  min c.maxAtt ((level >>> c.envFracBits) + kslAtt + c.amAtt amDepth amDam lfoIn)

/-- EGKEYON (R170). -/
def egkeyon (c : Cfg) (s : State) : State := returnOk 0 (s.mapEnv (keyOnEnv c))

/-- EGKEYOFF (R171). -/
def egkeyoff (s : State) : State := returnOk 0 (s.mapEnv keyOffEnv)

/-- GETENV: the value returned is computed from the level after the advance (R172). -/
def getenv (c : Cfg) (amDepth amDam lfoIn : Nat) (s : State) : State :=
  returnOk (envOut c (advanceEnv c s.eg).level s.eg.kslAtt amDepth amDam lfoIn) (s.mapEnv (advanceEnv c))

/-- The meaning of EGKEYON (R170). -/
def execEgkeyon (s : State) : Host.Outcome State Fault Refusal := .next (egkeyon Config.cfg s)

/-- The meaning of EGKEYOFF (R171). -/
def execEgkeyoff (s : State) : Host.Outcome State Fault Refusal := .next (egkeyoff s)

/-- The meaning of GETENV (R172). -/
def execGetenv (amDepth amDam lfoIn : Nat) (s : State) : Host.Outcome State Fault Refusal :=
  .next (getenv Config.cfg amDepth amDam lfoIn s)

end Sys2Proof.Machine
end

