-- ==== Sys2Proof/Machine/Phase.lean ====
section
/-! DEFINITION. The phase generator's commands SETFREQ, PGKEYON and GETPHASE (R130 to R144), each first for any
configuration and then, as the meaning, for this machine's. -/

namespace Sys2Proof.Machine

open Sys2Proof

/-- `ksn = (block << 1) | fnum[9]` (R130). -/
def keyScaleNumber (fnum block : Nat) : Nat := (block <<< 1) ||| ((fnum >>> 9) % 2)

/-- `base = (a << b) >> FIXED_SHIFT` (R131, R133 (a), (b)). -/
def baseIncrement (c : Cfg) (fnum block : Nat) : Nat := (fnum <<< block) >>> c.fixedShift

/-- `full = (base + DT_INC[d][ksn]) * MULT2[c]`, twice the increment, a signed integer (R131, R133 (c)). -/
def doubledIncrement (c : Cfg) (fnum block multiple detuneIndex : Nat) : Int :=
  ((baseIncrement c fnum block : Int) + c.dtInc detuneIndex (keyScaleNumber fnum block)) * (c.mult2 multiple : Int)

/-- `inc = floor(full / 2) mod 2^N` (R131, R133 (d), (e)); `/` and `%` of `Int` by a positive divisor are the floor and the
representative in range that R13 asks for. -/
def increment (c : Cfg) (fnum block multiple detuneIndex : Nat) : Nat :=
  (doubledIncrement c fnum block multiple detuneIndex / 2 % (c.pmod : Int)).toNat

/-- The registers SETFREQ writes, ACC not among them (R131, R134). -/
def writeFrequency (c : Cfg) (fnum block multiple detuneIndex : Nat) (p : PhaseRegs) : PhaseRegs where
  fnum := BitVec.ofNat 10 fnum
  block := BitVec.ofNat 3 block
  mult := BitVec.ofNat 4 multiple
  dt := detuneIndex
  ksn := BitVec.ofNat 4 (keyScaleNumber fnum block)
  inc := increment c fnum block multiple detuneIndex
  acc := p.acc

/-- SETFREQ (R131, R132). -/
def setfreq (c : Cfg) (fnum block multiple detuneIndex : Nat) (s : State) : State :=
  completeSetter (checkSetfreq c fnum block multiple detuneIndex)
    (State.mapPhase (writeFrequency c fnum block multiple detuneIndex)) s

/-- PGKEYON (R135). -/
def pgkeyon (s : State) : State := returnOk 0 (s.mapPhase fun p => { p with acc := 0 })

/-- One sample of the accumulator: `ACC <- (ACC + VIB_INC(INC, vdepth, vphase)) mod 2^N`, INC kept (R136, R138, R139). -/
def advancePhase (c : Cfg) (vdepth vphase : Nat) (p : PhaseRegs) : PhaseRegs :=
  { p with acc := (p.acc + c.vibInc p.inc vdepth vphase) % c.pmod }

/-- GETPHASE: the pre-advance phase is returned (R136, R137). fbin is accepted and ignored (R140; log entry 19). -/
def getphase (c : Cfg) (vdepth vphase _fbin : Nat) (s : State) : State :=
  returnOk s.pg.acc (s.mapPhase (advancePhase c vdepth vphase))

/-- The meaning of SETFREQ (R131). -/
def execSetfreq (fnum block multiple detuneIndex : Nat) (s : State) : Host.Outcome State Fault Refusal :=
  .next (setfreq Config.cfg fnum block multiple detuneIndex s)

/-- The meaning of PGKEYON (R135). -/
def execPgkeyon (s : State) : Host.Outcome State Fault Refusal := .next (pgkeyon s)

/-- The meaning of GETPHASE (R136). -/
def execGetphase (vdepth vphase fbin : Nat) (s : State) : Host.Outcome State Fault Refusal :=
  .next (getphase Config.cfg vdepth vphase fbin s)

end Sys2Proof.Machine
end

