-- ==== Sys2Proof/Machine/Dispatch.lean ====
section
/-! DEFINITION. What each command does: one arm per constructor, one meaning per arm. -/

namespace Sys2Proof.Machine

open Sys2Proof

def exec (i : Instr) (s : State) : Host.Outcome State Fault Refusal :=
  match i with
  | .setfreq fnum block multiple detuneIndex => Sys2Proof.Machine.execSetfreq fnum block multiple detuneIndex s
  | .pgkeyon => Sys2Proof.Machine.execPgkeyon s
  | .getphase vdepth vphase fbin => Sys2Proof.Machine.execGetphase vdepth vphase fbin s
  | .setatt fnum block ksl => Sys2Proof.Machine.execSetatt fnum block ksl s
  | .setar rate ksr ksn => Sys2Proof.Machine.execSetar rate ksr ksn s
  | .setdr rate ksr ksn => Sys2Proof.Machine.execSetdr rate ksr ksn s
  | .setsl sl => Sys2Proof.Machine.execSetsl sl s
  | .setsr rate ksr ksn => Sys2Proof.Machine.execSetsr rate ksr ksn s
  | .setrr rate ksr ksn => Sys2Proof.Machine.execSetrr rate ksr ksn s
  | .egkeyon => Sys2Proof.Machine.execEgkeyon s
  | .egkeyoff => Sys2Proof.Machine.execEgkeyoff s
  | .getenv amDepth amDam lfoIn => Sys2Proof.Machine.execGetenv amDepth amDam lfoIn s

end Sys2Proof.Machine
end

