-- ==== Sys2Proof/Machine/Step.lean ====
section
/-! DEFINITION. One step: the next thing presented to CORE takes its whole effect (R3, R55, R58). -/

namespace Sys2Proof.Machine

open Sys2Proof

/-- Nothing presented: CORE takes no step of its own (R19, R217). RESET: the reset state (R240). A command word: it is
decoded and executed, or refused if it is no legal command (R77, R84). -/
def step (s : State) : Host.Outcome State Fault Refusal :=
  match s.inputs with
  | [] => .next (awaitCommand s)
  | .reset :: rest => .next (assertReset Config.cfg { s with inputs := rest })
  | .command w :: rest =>
    match decode w with
    | .ok i => exec i { s with inputs := rest }
    | .error e => .refused (.illegalWord e)

/-- The driver presents the word next, before whatever it was to present (R22; log entry 4). -/
def State.withFetchWord (s : State) (nbits w : Nat) : State :=
  { s with inputs := .command (tableWord nbits w) :: s.inputs }

end Sys2Proof.Machine
end

