-- ==== Sys2Proof/Machine/Pseudo.lean ====
section
/-! DEFINITION. The three pseudo-commands of the text form and the commands they stand for (R87 to R90). -/

namespace Sys2Proof.Machine

open Sys2Proof

/-- The pseudo-commands; there are no others (R90). -/
inductive Pseudo where
  | keyon
  | keyoff
  | tick (vdepth vphase fbin amDepth amDam lfoIn : Nat)
deriving DecidableEq, Repr

/-- What a pseudo-command expands to (R87, R88, R89). -/
def Pseudo.expand : Pseudo → List Instr
  | .keyon => [.pgkeyon, .egkeyon]
  | .keyoff => [.egkeyoff]
  | .tick vdepth vphase fbin amDepth amDam lfoIn =>
    [.getphase vdepth vphase fbin, .getenv amDepth amDam lfoIn]

end Sys2Proof.Machine
end

