-- ==== Sys2Proof/Machine/Assembler.lean ====
section
/-! DEFINITION. The text form of a driver's program (R86): one command or pseudo-command a line, assembled into command
words. What R86 leaves open (spaces, the case of hexadecimal digits) is log entry 25. -/

namespace Sys2Proof.Machine

open Sys2Proof

/-- Why a line cannot be assembled. -/
inductive AsmError where
  /-- neither one of the twelve mnemonics nor a pseudo-command (R74, R90) -/
  | unknownMnemonic
  /-- not a natural in decimal or in hexadecimal with the prefix 0x -/
  | badNumber
  /-- not the operands of the command's format -/
  | wrongOperandCount
  /-- an operand that does not fit its field -/
  | operandTooWide
deriving DecidableEq, Repr

/-- The mnemonic of a row, in upper case (R74, R86). -/
def mnemonic : Op → String
  | .setfreq => "SETFREQ"
  | .pgkeyon => "PGKEYON"
  | .getphase => "GETPHASE"
  | .setatt => "SETATT"
  | .setar => "SETAR"
  | .setdr => "SETDR"
  | .setsl => "SETSL"
  | .setsr => "SETSR"
  | .setrr => "SETRR"
  | .egkeyon => "EGKEYON"
  | .egkeyoff => "EGKEYOFF"
  | .getenv => "GETENV"

def isBlank (ch : Char) : Bool := ch == ' ' || ch == '\t' || ch == '\r'

/-- A text without the blanks at its two ends. -/
def trimBlanks (cs : List Char) : List Char := ((cs.dropWhile isBlank).reverse.dropWhile isBlank).reverse

/-- The pieces between the separators; always at least one. -/
def splitAtChar (sep : Char) : List Char → List (List Char)
  | [] => [[]]
  | ch :: cs =>
    if ch = sep then [] :: splitAtChar sep cs
    else
      match splitAtChar sep cs with
      | [] => [[ch]]
      | piece :: pieces => (ch :: piece) :: pieces

/-- The value of a digit in a base of at most sixteen. -/
def digitValue (base : Nat) (ch : Char) : Option Nat :=
  let n := ch.toNat
  let v :=
    if 48 ≤ n ∧ n ≤ 57 then n - 48
    else if 97 ≤ n ∧ n ≤ 102 then n - 87
    else if 65 ≤ n ∧ n ≤ 70 then n - 55
    else base
  if v < base then some v else none

/-- The number that digits stand for, after the value `acc` of those before. -/
def digitsValue (base : Nat) : Nat → List Char → Option Nat
  | acc, [] => some acc
  | acc, ch :: cs =>
    match digitValue base ch with
    | some v => digitsValue base (acc * base + v) cs
    | none => none

/-- "each a natural number in decimal or in hexadecimal with the prefix `0x`" (R86). -/
def parseNumber (cs : List Char) : Except AsmError Nat :=
  let value :=
    match cs with
    | [] => none
    | '0' :: 'x' :: [] => none
    | '0' :: 'x' :: ds => digitsValue 16 0 ds
    | ds => digitsValue 10 0 ds
  match value with
  | some n => .ok n
  | none => .error .badNumber

/-- Operands "separated by commas" (R86). -/
def parseNumbers : List (List Char) → Except AsmError (List Nat)
  | [] => .ok []
  | piece :: pieces =>
    match parseNumber (trimBlanks piece), parseNumbers pieces with
    | .ok n, .ok ns => .ok (n :: ns)
    | .error e, _ => .error e
    | .ok _, .error e => .error e

/-- The operands of a line; none where nothing follows the mnemonic. -/
def parseOperands (cs : List Char) : Except AsmError (List Nat) :=
  match cs with
  | [] => .ok []
  | ch :: rest => parseNumbers (splitAtChar ',' (ch :: rest))

/-- A row with its format's operands, in the order a, b, c, d (R72, R86). -/
def buildCommand (o : Op) (operands : List Nat) : Except AsmError (List Instr) :=
  match o.format, operands with
  | .z, [] => .ok [o.instr 0 0 0 0]
  | .s, [a] => .ok [o.instr a 0 0 0]
  | .t, [a, b, c] => .ok [o.instr a b c 0]
  | .f, [a, b, c, d] => .ok [o.instr a b c d]
  | _, _ => .error .wrongOperandCount

/-- A pseudo-command with its operands (R87 to R89). -/
def buildPseudo (name : List Char) (operands : List Nat) : Except AsmError (List Instr) :=
  if name = "KEYON".toList then
    match operands with
    | [] => .ok Pseudo.keyon.expand
    | _ => .error .wrongOperandCount
  else if name = "KEYOFF".toList then
    match operands with
    | [] => .ok Pseudo.keyoff.expand
    | _ => .error .wrongOperandCount
  else if name = "TICK".toList then
    match operands with
    | [vdepth, vphase, fbin, amDepth, amDam, lfoIn] =>
      .ok (Pseudo.tick vdepth vphase fbin amDepth amDam lfoIn).expand
    | _ => .error .wrongOperandCount
  else .error .unknownMnemonic

/-- The commands of a mnemonic and its operands. -/
def buildLine (name : List Char) (operands : List Nat) : Except AsmError (List Instr) :=
  match Op.all.find? (fun o => (mnemonic o).toList == name) with
  | some o => buildCommand o operands
  | none => buildPseudo name operands

/-- One line: "Everything from `;` to the end of the line is a comment. Blank lines are ignored"; an operand that does not
fit its field cannot be assembled (R86). -/
def parseLine (line : List Char) : Except AsmError (List Instr) :=
  let text := trimBlanks (line.takeWhile fun ch => ch != ';')
  match text with
  | [] => .ok []
  | ch :: rest =>
    let name := (ch :: rest).takeWhile fun c => !isBlank c
    let operands := trimBlanks ((ch :: rest).dropWhile fun c => !isBlank c)
    match parseOperands operands with
    | .error e => .error e
    | .ok ns =>
      match buildLine name ns with
      | .error e => .error e
      | .ok is => if is.all Instr.wellFormed then .ok is else .error .operandTooWide

/-- The lines of a program, in order. -/
def parseLines : List (List Char) → Except AsmError (List Instr)
  | [] => .ok []
  | line :: lines =>
    match parseLine line, parseLines lines with
    | .ok is, .ok rest => .ok (is ++ rest)
    | .error e, _ => .error e
    | .ok _, .error e => .error e

/-- A program's text as the command words the driver presents, in order (R22, R86). -/
def assemble (text : String) : Except AsmError (List CommandWord) :=
  match parseLines (splitAtChar '\n' text.toList) with
  | .ok is => .ok (is.map encode)
  | .error e => .error e

end Sys2Proof.Machine
end

