-- ==== Sys2Proof/Machine/AnyConfig.lean ====
section
/-! DEFINITION. The commands and command sequences under ANY configuration, for claims that quantify over `Cfg` or name the
one they assume (R10), and for the spec's worked examples under CFG_EX. At this machine's configuration it is `exec`. -/

namespace Sys2Proof.Machine

open Sys2Proof

/-- The whole effect of a command under the configuration `c`. -/
def applyWith (c : Cfg) (i : Instr) (s : State) : State :=
  match i with
  | .setfreq fnum block multiple detuneIndex => setfreq c fnum block multiple detuneIndex s
  | .pgkeyon => pgkeyon s
  | .getphase vdepth vphase fbin => getphase c vdepth vphase fbin s
  | .setatt fnum block ksl => setatt c fnum block ksl s
  | .setar rate ksr ksn => setar c rate ksr ksn s
  | .setdr rate ksr ksn => setdr c rate ksr ksn s
  | .setsl sl => setsl c sl s
  | .setsr rate ksr ksn => setsr c rate ksr ksn s
  | .setrr rate ksr ksn => setrr c rate ksr ksn s
  | .egkeyon => egkeyon c s
  | .egkeyoff => egkeyoff s
  | .getenv amDepth amDam lfoIn => getenv c amDepth amDam lfoIn s

/-- The state after a sequence of commands, one after the other (R22, R58, R255). -/
def applyAll (c : Cfg) : List Instr → State → State
  | [], s => s
  | i :: is, s => applyAll c is (applyWith c i s)

/-- The responses to a sequence of commands, in order: a claim about a run is about these and the state after (R255). -/
def responses (c : Cfg) : List Instr → State → List Response
  | [], _ => []
  | i :: is, s => (applyWith c i s).response.toList ++ responses c is (applyWith c i s)

/-- The commands of the phase generator; the others are the envelope generator's (R20, R74). -/
def isPhaseCommand : Instr → Bool
  | .setfreq _ _ _ _ => true
  | .pgkeyon => true
  | .getphase _ _ _ => true
  | .setatt _ _ _ => false
  | .setar _ _ _ => false
  | .setdr _ _ _ => false
  | .setsl _ => false
  | .setsr _ _ _ => false
  | .setrr _ _ _ => false
  | .egkeyon => false
  | .egkeyoff => false
  | .getenv _ _ _ => false

/-- The response a command returns under the configuration `c`. -/
def responseOf (c : Cfg) (i : Instr) (s : State) : Option Response := (applyWith c i s).response

end Sys2Proof.Machine
end

