-- ==== Sys2Proof/Machine/Instances.lean ====
section
/-! DEFINITION. Several CORE instances: independent copies of the state under one `Cfg`, with no interaction term (R63, R224,
R225). Which instance the driver commands next is the driver's (R225). -/

namespace Sys2Proof.Machine

open Sys2Proof

/-- The instances of a synthesizer, one per operator (R224). -/
abbrev Voice := List State

/-- The instances after reset: each starts "independently from the reset state" (R224). -/
def Voice.reset (c : Cfg) (instances : Nat) : Voice := List.replicate instances (State.resetWith c)

/-- The driver gives instance `k` a command; the others do nothing (R63). -/
def Voice.command (c : Cfg) (k : Nat) (i : Instr) (v : Voice) : Voice := v.modify k (applyWith c i)

/-- The driver's interleaving of the instances' command sequences (R225). -/
def Voice.run (c : Cfg) : List (Nat × Instr) → Voice → Voice
  | [], v => v
  | (k, i) :: schedule, v => Voice.run c schedule (Voice.command c k i v)

/-- The commands of a schedule that go to instance `k`, in order. -/
def commandsFor (k : Nat) (schedule : List (Nat × Instr)) : List Instr :=
  (schedule.filter fun entry => entry.1 == k).map Prod.snd

end Sys2Proof.Machine
end

