-- ==== Sys2Proof/Safety.lean ====
section
/-! DEFINITION. What claims are stated in: the invariants of CORE (R31), the access table (R30), the runs that never stop,
and the driver's duties, which CORE does not check (R243 to R248, R251). -/

namespace Sys2Proof.Machine

open Sys2Proof

/-- The invariants of every state reachable from reset. (a) to (h) are R31; the rates' bound 0..63 is their registers' type.
`dt_lt`, `ksn_eq`, `inc_eq` and `kslAtt_mem` say that DT, KSN, INC and KSLATT hold what R24 and R25 say they hold, and the
response clauses what R80 and R81 say of a response (log entry 27). -/
structure Inv (c : Cfg) (s : State) : Prop where
  acc_lt : s.pg.acc < c.pmod
  inc_lt : s.pg.inc < c.pmod
  level_le : s.eg.level ≤ c.lmax
  idle_silent : s.eg.stage = .idle → s.eg.level = c.lmax
  damp_silent : s.eg.stage = .damp → s.eg.level = c.lmax
  damp_counts : s.eg.stage = .damp → 1 ≤ s.eg.dampCnt ∧ s.eg.dampCnt ≤ c.dampTicks
  damp_only : s.eg.stage ≠ .damp → s.eg.dampCnt = 0
  sl_le : s.eg.sl ≤ c.maxAtt
  dt_lt : s.pg.dt < c.dtRows
  ksn_eq : s.pg.ksn.toNat = 2 * s.pg.block.toNat + s.pg.fnum.toNat / 512
  inc_eq : s.pg.inc = increment c s.pg.fnum.toNat s.pg.block.toNat s.pg.mult.toNat s.pg.dt
  kslAtt_mem : ∃ ksl ≤ 3, ∃ block ≤ 7, ∃ fnum ≤ 1023, s.eg.kslAtt = c.kslAttFn ksl block fnum
  response_data : ∀ r, s.response = some r → r.data < 2 ^ dataBits c
  response_ok : ∀ r, s.response = some r → r.status = .ok → r.info = 0
  response_invalid : ∀ r, s.response = some r → r.status = .invalidParameter →
    1 ≤ r.info.toNat ∧ r.info.toNat ≤ 4 ∧ r.data = 0

/-- Every word the driver will present is a legal command: the duty of R77 ("A driver must never present an illegal word"). -/
def LegalInputs (s : State) : Prop := ∀ w, Input.command w ∈ s.inputs → ∃ i, decode w = .ok i

/-- A safe run: `n` steps that neither fault nor are refused. -/
def SafeRun (n : Nat) (s : State) : Prop := ∃ t, Host.Core.run Sys2Proof.core n s = .next t

/-- The registers, by name (R20). -/
inductive Reg where
  | fnum
  | block
  | mult
  | dt
  | ksn
  | inc
  | acc
  | stage
  | level
  | dampCnt
  | ar
  | dr
  | sr
  | rr
  | sl
  | kslAtt
deriving DecidableEq, Repr

/-- The unsigned value a register holds (R13). -/
def Reg.read (s : State) : Reg → Nat
  | .fnum => s.pg.fnum.toNat
  | .block => s.pg.block.toNat
  | .mult => s.pg.mult.toNat
  | .dt => s.pg.dt
  | .ksn => s.pg.ksn.toNat
  | .inc => s.pg.inc
  | .acc => s.pg.acc
  | .stage => s.eg.stage.code.toNat
  | .level => s.eg.level
  | .dampCnt => s.eg.dampCnt
  | .ar => s.eg.ar.toNat
  | .dr => s.eg.dr.toNat
  | .sr => s.eg.sr.toNat
  | .rr => s.eg.rr.toNat
  | .sl => s.eg.sl
  | .kslAtt => s.eg.kslAtt

/-- The registers a command writes: the w entries of the access table (R30). -/
def writes : Op → List Reg
  | .setfreq => [.fnum, .block, .mult, .dt, .ksn, .inc]
  | .pgkeyon => [.acc]
  | .getphase => [.acc]
  | .setatt => [.kslAtt]
  | .setar => [.ar]
  | .setdr => [.dr]
  | .setsl => [.sl]
  | .setsr => [.sr]
  | .setrr => [.rr]
  | .egkeyon => [.stage, .level, .dampCnt]
  | .egkeyoff => [.stage, .dampCnt]
  | .getenv => [.stage, .level, .dampCnt]

/-- The registers a command reads: the r entries of the access table (R30). -/
def reads : Op → List Reg
  | .setfreq => []
  | .pgkeyon => []
  | .getphase => [.inc, .acc]
  | .setatt => []
  | .setar => []
  | .setdr => []
  | .setsl => []
  | .setsr => []
  | .setrr => []
  | .egkeyon => [.level]
  | .egkeyoff => [.stage]
  | .getenv => [.ar, .dr, .sr, .rr, .sl, .kslAtt, .stage, .level, .dampCnt]

/-- The command completes rather than raise: every operand in its legal range (R212, R216). -/
def legalOperands (c : Cfg) : Instr → Bool
  | .setfreq fnum block multiple detuneIndex => (checkSetfreq c fnum block multiple detuneIndex).isNone
  | .setatt fnum block ksl => (checkSetatt fnum block ksl).isNone
  | .setar rate ksr ksn => (checkRate rate ksr ksn).isNone
  | .setdr rate ksr ksn => (checkRate rate ksr ksn).isNone
  | .setsl sl => (checkSetsl sl).isNone
  | .setsr rate ksr ksn => (checkRate rate ksr ksn).isNone
  | .setrr rate ksr ksn => (checkRate rate ksr ksn).isNone
  | .pgkeyon => true
  | .getphase _ _ _ => true
  | .egkeyon => true
  | .egkeyoff => true
  | .getenv _ _ _ => true

/-- One half of a sample (R15, R246). -/
def isTick (i : Instr) : Bool := i.op == .getphase || i.op == .getenv

/-- One half of a key-on (R251). -/
def isKeyOn (i : Instr) : Bool := i.op == .pgkeyon || i.op == .egkeyon

/-- The driver's duties once per sample, in lockstep and at sample boundaries (R245, R246, R247): every sample is one
GETPHASE and one GETENV, in either order, with nothing between them. -/
def sampleDiscipline : List Instr → Bool
  | [] => true
  | .getphase _ _ _ :: .getenv _ _ _ :: rest => sampleDiscipline rest
  | .getenv _ _ _ :: .getphase _ _ _ :: rest => sampleDiscipline rest
  | i :: rest => !isTick i && sampleDiscipline rest

/-- Whether a key-on of the phase generator and one of the envelope generator stand together before the next tick, given
that the one (`p`) and the other (`e`) have already been issued since the last tick. -/
def keyOnPaired (p e : Bool) : List Instr → Bool
  | [] => p == e
  | i :: rest =>
    if i.op = .pgkeyon then keyOnPaired true e rest
    else if i.op = .egkeyon then keyOnPaired p true rest
    else if isTick i then p == e && keyOnPaired false false rest
    else keyOnPaired p e rest

/-- The driver's duty to key on both halves of an operator, in either order and with no tick between them (R251, R87). -/
def keyOnDiscipline (is : List Instr) : Bool := keyOnPaired false false is

/-- The seven setters, each of which the driver must have issued successfully before the first key-on (R243). -/
def bootSetters : List Op := [.setfreq, .setatt, .setar, .setdr, .setsl, .setsr, .setrr]

/-- The driver's duty before the first key-on (R243). -/
def bootDiscipline (c : Cfg) (is : List Instr) : Bool :=
  !is.any isKeyOn ||
    bootSetters.all fun o => (is.takeWhile fun i => !isKeyOn i).any fun i => i.op == o && legalOperands c i

/-- A SETFREQ to this pitch obliges the driver to issue the rate setters again, if key scaling is to follow it (R248). -/
def ratesMustFollow (fnum block fnum' block' : Nat) : Bool :=
  keyScaleNumber fnum block != keyScaleNumber fnum' block'

/-- A SETFREQ to this pitch obliges the driver to issue SETATT again, if key scaling is to follow it (R248). -/
def levelMustFollow (c : Cfg) (fnum block fnum' block' : Nat) : Bool :=
  block != block' || fnum >>> (10 - c.kslFnumBits) != fnum' >>> (10 - c.kslFnumBits)

end Sys2Proof.Machine
end

