-- ==== Sys2Proof/Certificates/Slice0/Obligations.lean ====
section
/-! DEFINITION. The statements for the provers. `Config.cfg` is opaque in every OPEN value (log entry 1), so a statement about
`exec` or `step` holds for every configuration R10 allows; one that needs a property of the configuration quantifies over
`c : Cfg` and names the property. Formulas are written out as the rules write them, not by the model's own operations.
Where a rule carries the spec's mark of its own decision or inference, the docstring says so and the basis is derived. -/

open Sys2Proof Sys2Proof.Machine

/-! ## The phase generator -/

/-- SETFREQ with every operand in its legal range: the six registers it writes, ACC and everything else kept, response
(OK, 0, 0). R131 with R133; the integer form of the increment is the spec's decision D9 (log entry 17). -/
def Obligations.SetfreqWritesFrequencyRegisters : Prop :=
  ∀ (fnum block multiple detuneIndex : Nat) (s : State),
    fnum ≤ 1023 → block ≤ 7 → multiple ≤ 15 → detuneIndex < Config.cfg.dtRows →
    exec (.setfreq fnum block multiple detuneIndex) s = .next { s with
      pg := {
        fnum := BitVec.ofNat 10 fnum
        block := BitVec.ofNat 3 block
        mult := BitVec.ofNat 4 multiple
        dt := detuneIndex
        ksn := BitVec.ofNat 4 (2 * block + fnum / 512)
        inc := ((((fnum * 2 ^ block / 2 ^ Config.cfg.fixedShift : Nat) : Int)
            + Config.cfg.dtInc detuneIndex (2 * block + fnum / 512)) * (Config.cfg.mult2 multiple : Int) / 2
            % (2 ^ Config.cfg.phaseBits : Int)).toNat
        acc := s.pg.acc }
      response := some ⟨.ok, 0, 0⟩ }

/-- SETFREQ with an operand out of range: the first in the order a, b, c, d decides the response, and nothing is written.
R132, R212 and R213; the checks of multiple and detuneIndex and the order are the spec's decisions D4 and D6. -/
def Obligations.SetfreqRejectsFirstOffendingOperand : Prop :=
  ∀ (fnum block multiple detuneIndex : Nat) (s : State) (k : BitVec 3),
    (1023 < fnum ∧ k = 1 ∨
      fnum ≤ 1023 ∧ 7 < block ∧ k = 2 ∨
      fnum ≤ 1023 ∧ block ≤ 7 ∧ 15 < multiple ∧ k = 3 ∨
      fnum ≤ 1023 ∧ block ≤ 7 ∧ multiple ≤ 15 ∧ Config.cfg.dtRows ≤ detuneIndex ∧ k = 4) →
    exec (.setfreq fnum block multiple detuneIndex) s = .next { s with response := some ⟨.invalidParameter, k, 0⟩ }

/-- The key-scale number: after a SETFREQ in range KSN is (block << 1) | fnum[9] = 2 * block + (fnum >> 9), at most 15; and no
envelope command computes or reads it: each does the same whatever the phase generator's registers hold (R130). -/
def Obligations.KeyScaleNumberComesFromPitch : Prop :=
  (∀ (fnum block multiple detuneIndex : Nat) (s : State),
    fnum ≤ 1023 → block ≤ 7 → multiple ≤ 15 → detuneIndex < Config.cfg.dtRows →
    ∃ t : State, exec (.setfreq fnum block multiple detuneIndex) s = .next t ∧
      t.pg.ksn.toNat = (block <<< 1) ||| (fnum.testBit 9).toNat ∧ t.pg.ksn.toNat = 2 * block + fnum >>> 9 ∧
      t.pg.ksn.toNat ≤ 15) ∧
  ∀ (i : Instr) (s : State) (p : PhaseRegs), isPhaseCommand i = false →
    ∃ t : State, exec i s = .next t ∧ t.pg = s.pg ∧ exec i { s with pg := p } = .next { t with pg := p }

/-- SETFREQ keeps ACC, whatever its operands, and the very next GETPHASE returns the phase already accumulated and advances it
by the INC that SETFREQ left (R134). -/
def Obligations.FrequencyChangeKeepsPhase : Prop :=
  ∀ (fnum block multiple detuneIndex : Nat) (s : State), ∃ t : State,
    exec (.setfreq fnum block multiple detuneIndex) s = .next t ∧ t.pg.acc = s.pg.acc ∧
    ∀ vdepth vphase fbin : Nat, ∃ u : State, exec (.getphase vdepth vphase fbin) t = .next u ∧
      u.response = some ⟨.ok, 0, s.pg.acc⟩ ∧ u.pg.inc = t.pg.inc ∧
      u.pg.acc = (s.pg.acc + Config.cfg.vibInc t.pg.inc vdepth vphase) % 2 ^ Config.cfg.phaseBits

/-- PGKEYON (the word 0x0200000000000000) zeroes ACC and nothing else, and the next GETPHASE, whatever its operands, returns
phase 0; key-off leaves the phase generator alone (R135). -/
def Obligations.PgkeyonStartsFreshCycle : Prop :=
  decode 0x0200000000000000 = .ok .pgkeyon ∧
  ∀ s : State,
    (∃ t : State, exec .pgkeyon s = .next t ∧
      t = { s with pg := { s.pg with acc := 0 }, response := some ⟨.ok, 0, 0⟩ } ∧
      ∀ vdepth vphase fbin : Nat, ∃ u : State, exec (.getphase vdepth vphase fbin) t = .next u ∧
        u.response = some ⟨.ok, 0, 0⟩) ∧
    ∃ t : State, exec .egkeyoff s = .next t ∧ t.pg = s.pg

/-- GETPHASE returns the phase before the advance, adds VIB_INC(INC, vdepth, vphase) modulo 2^N, and changes nothing else
(R136). -/
def Obligations.GetphaseReturnsPreAdvancePhase : Prop :=
  ∀ (vdepth vphase fbin : Nat) (s : State),
    exec (.getphase vdepth vphase fbin) s = .next { s with
      pg := { s.pg with acc := (s.pg.acc + Config.cfg.vibInc s.pg.inc vdepth vphase) % 2 ^ Config.cfg.phaseBits }
      response := some ⟨.ok, 0, s.pg.acc⟩ }

/-- The accumulator is in its range after every GETPHASE, the phase it returns is an ordinary response with status OK whether or
not the addition passed 2^N - 1, and nothing records that it did: the state after is s but for ACC and that response (R138). -/
def Obligations.PhaseWrapIsSilent : Prop :=
  ∀ (vdepth vphase fbin : Nat) (s : State), ∃ acc' wraps : Nat,
    acc' < 2 ^ Config.cfg.phaseBits ∧
    s.pg.acc + Config.cfg.vibInc s.pg.inc vdepth vphase = wraps * 2 ^ Config.cfg.phaseBits + acc' ∧
    exec (.getphase vdepth vphase fbin) s = .next { s with
      pg := { s.pg with acc := acc' }
      response := some ⟨.ok, 0, s.pg.acc⟩ }

/-- With vibrato depth 0 GETPHASE adds exactly INC whatever vphase is, and fbin never matters. R139 and R140, the spec's
decisions D11 and D12 (log entries 18 and 19). -/
def Obligations.GetphaseWithoutVibratoAddsIncrement : Prop :=
  (∀ (vphase fbin : Nat) (s : State), s.pg.inc < 2 ^ Config.cfg.phaseBits → vphase ≤ 65535 →
    exec (.getphase 0 vphase fbin) s = .next { s with
      pg := { s.pg with acc := (s.pg.acc + s.pg.inc) % 2 ^ Config.cfg.phaseBits }
      response := some ⟨.ok, 0, s.pg.acc⟩ }) ∧
  ∀ (vdepth vphase fbin fbin' : Nat) (s : State),
    exec (.getphase vdepth vphase fbin) s = exec (.getphase vdepth vphase fbin') s

/-- k samples advance the phase by k increments: from a state with ACC and INC in range, GETPHASE calls with depth 0 return
ACC + j * INC modulo 2^N for j = 0, 1, ... and leave ACC + k * INC modulo 2^N, INC kept (from R136, R139 and R246). -/
def Obligations.PhaseAfterSamplesIsLinear : Prop :=
  ∀ (c : Cfg) (s : State) (calls : List (Nat × Nat)), c.Wf → s.pg.acc < 2 ^ c.phaseBits → s.pg.inc < 2 ^ c.phaseBits →
    (∀ p ∈ calls, p.1 ≤ 65535) →
    (applyAll c (calls.map fun p => .getphase 0 p.1 p.2) s).pg =
      { s.pg with acc := (s.pg.acc + calls.length * s.pg.inc) % 2 ^ c.phaseBits } ∧
    responses c (calls.map fun p => .getphase 0 p.1 p.2) s =
      (List.range calls.length).map fun j => ⟨.ok, 0, (s.pg.acc + j * s.pg.inc) % 2 ^ c.phaseBits⟩

/-- What detune and the multiplier contribute to INC, for every well-formed configuration: detune index 0 adds nothing; for
multiple 1 to 8 without wrap, INC is (base + detune) * multiple, so detune adds DT_INC * multiple; multiple 0 halves,
rounding down. R143, which the spec derives from R131, R104 and R108. -/
def Obligations.DetuneIsScaledByMultiple : Prop :=
  ∀ (c : Cfg) (fnum block d : Nat) (s : State), c.Wf → fnum ≤ 1023 → block ≤ 7 → d < c.dtRows →
    let inc := fun m d' => (applyWith c (.setfreq fnum block m d') s).pg.inc
    let base : Nat := fnum * 2 ^ block / 2 ^ c.fixedShift
    let dt : Int := c.dtInc d (2 * block + fnum / 512)
    (∀ m ≤ 15, inc m 0 = base * c.mult2 m / 2 % 2 ^ c.phaseBits) ∧
    (∀ m : Nat, 1 ≤ m → m ≤ 8 → 0 ≤ (base : Int) + dt → ((base : Int) + dt) * m < 2 ^ c.phaseBits →
      base * m < 2 ^ c.phaseBits →
      (inc m d : Int) = ((base : Int) + dt) * m ∧ (inc m d : Int) - (inc m 0 : Int) = dt * m) ∧
    (base < 2 ^ c.phaseBits → inc 0 0 = inc 1 0 / 2)

/-! ## The envelope generator's setters -/

/-- SETATT stores KSL_ATT_FN(ksl, block, fnum), which is 0 at ksl = 0, and changes nothing else. R163 and R109; the checks
and the curve's place in `Cfg` are the spec's decisions D4 and D20. -/
def Obligations.SetattStoresStaticAttenuation : Prop :=
  ∀ (fnum block ksl : Nat) (s : State), fnum ≤ 1023 → block ≤ 7 → ksl ≤ 3 →
    exec (.setatt fnum block ksl) s = .next { s with
      eg := { s.eg with kslAtt := if ksl = 0 then 0 else Config.cfg.kslAttFn ksl block fnum }
      response := some ⟨.ok, 0, 0⟩ }

/-- SETATT sees fnum only through its top KSL_FNUM_BITS bits, so a pitch change that leaves them and block alone needs no new
SETATT (R109 (b) and R248, the spec's decision D20 and its derivation). -/
def Obligations.SetattReadsOnlyTopBitsOfFnum : Prop :=
  ∀ (c : Cfg) (fnum fnum' block block' ksl : Nat) (s : State), c.Wf → fnum ≤ 1023 → fnum' ≤ 1023 → block ≤ 7 → ksl ≤ 3 →
    levelMustFollow c fnum block fnum' block' = false →
    applyWith c (.setatt fnum block ksl) s = applyWith c (.setatt fnum' block' ksl) s

/-- The four rate setters each store ACT(rate, ksr, ksn) in their own register and change nothing else. R162, R164, R165, R167
and R168; ACT is the spec's decision D16, its factor 4 from general knowledge (G1; log entry 16). -/
def Obligations.RateSettersStoreActualRate : Prop :=
  ∀ (rate ksr ksn : Nat) (s : State), rate ≤ 15 → ksr ≤ 1 → ksn ≤ 15 →
    let act : BitVec 6 := BitVec.ofNat 6 (if rate = 0 then 0 else min 63 (4 * rate + Config.cfg.ksrAdj ksr ksn))
    exec (.setar rate ksr ksn) s = .next { s with eg := { s.eg with ar := act }, response := some ⟨.ok, 0, 0⟩ } ∧
    exec (.setdr rate ksr ksn) s = .next { s with eg := { s.eg with dr := act }, response := some ⟨.ok, 0, 0⟩ } ∧
    exec (.setsr rate ksr ksn) s = .next { s with eg := { s.eg with sr := act }, response := some ⟨.ok, 0, 0⟩ } ∧
    exec (.setrr rate ksr ksn) s = .next { s with eg := { s.eg with rr := act }, response := some ⟨.ok, 0, 0⟩ }

/-- SETSL stores SL_MAP[sl], which is MAXATT at sl = 15, and changes nothing else. R166 and R113, the spec's decisions D18 and
D19. -/
def Obligations.SetslStoresMappedLevel : Prop :=
  ∀ (sl : Nat) (s : State), sl ≤ 15 →
    exec (.setsl sl) s = .next { s with
      eg := { s.eg with sl := if sl = 15 then Config.cfg.maxAtt else Config.cfg.slMap sl }
      response := some ⟨.ok, 0, 0⟩ }

/-- An envelope setter with an operand out of range: the first in the order a, b, c decides the response, and nothing is
written. R163 to R168, R212 and R213; the order and the checks the source does not name are the spec's decisions D4, D18. -/
def Obligations.EnvelopeSettersRejectFirstOffendingOperand : Prop :=
  (∀ (fnum block ksl : Nat) (s : State) (k : BitVec 3),
    (1023 < fnum ∧ k = 1 ∨ fnum ≤ 1023 ∧ 7 < block ∧ k = 2 ∨ fnum ≤ 1023 ∧ block ≤ 7 ∧ 3 < ksl ∧ k = 3) →
    exec (.setatt fnum block ksl) s = .next { s with response := some ⟨.invalidParameter, k, 0⟩ }) ∧
  (∀ (rate ksr ksn : Nat) (s : State) (k : BitVec 3),
    (15 < rate ∧ k = 1 ∨ rate ≤ 15 ∧ 1 < ksr ∧ k = 2 ∨ rate ≤ 15 ∧ ksr ≤ 1 ∧ 15 < ksn ∧ k = 3) →
    ∀ i ∈ [Instr.setar rate ksr ksn, .setdr rate ksr ksn, .setsr rate ksr ksn, .setrr rate ksr ksn],
      exec i s = .next { s with response := some ⟨.invalidParameter, k, 0⟩ }) ∧
  (∀ (sl : Nat) (s : State), 15 < sl →
    exec (.setsl sl) s = .next { s with response := some ⟨.invalidParameter, 1, 0⟩ })

/-- No setter, whatever its operands and in whatever stage, writes STAGE, LEVEL or DAMPCNT (R169); nor does any write ACC
(R134). -/
def Obligations.SettersKeepAccumulatedState : Prop :=
  ∀ (i : Instr) (s : State),
    i.op ∈ [Op.setfreq, .setatt, .setar, .setdr, .setsl, .setsr, .setrr] →
    ∃ t : State, exec i s = .next t ∧ t.eg.stage = s.eg.stage ∧ t.eg.level = s.eg.level ∧
      t.eg.dampCnt = s.eg.dampCnt ∧ t.pg.acc = s.pg.acc

/-! ## Key events -/

/-- EGKEYON: LEVEL to LMAX at once; Attack if the level was LMAX before, whatever the stage, else Damp for DAMP_TICKS = 1
sample; nothing else changes. R170, the spec's decision D21 (log entries 2 and 20). -/
def Obligations.EgkeyonForcesSilence : Prop :=
  ∀ s : State,
    (s.eg.level = Config.cfg.maxAtt * 2 ^ Config.cfg.envFracBits →
      exec .egkeyon s = .next { s with
        eg := { s.eg with stage := .attack, dampCnt := 0 }
        response := some ⟨.ok, 0, 0⟩ }) ∧
    (s.eg.level ≠ Config.cfg.maxAtt * 2 ^ Config.cfg.envFracBits →
      exec .egkeyon s = .next { s with
        eg := { s.eg with stage := .damp, level := Config.cfg.maxAtt * 2 ^ Config.cfg.envFracBits, dampCnt := 1 }
        response := some ⟨.ok, 0, 0⟩ })

/-- For any DAMP_TICKS: a key-on from a level other than LMAX holds full silence in Damp for exactly DAMP_TICKS samples, DAMPCNT
counting down, and is in Attack, still at LMAX, after the last; with DAMP_TICKS = 0 it is in Attack at once. R170 and R174,
the spec's decision D21. -/
def Obligations.DampLastsDampTicksSamples : Prop :=
  ∀ (c : Cfg) (s : State) (calls : List (Nat × Nat × Nat)), s.eg.level ≠ c.maxAtt * 2 ^ c.envFracBits →
    calls.length ≤ c.dampTicks →
    (applyAll c (.egkeyon :: calls.map fun p => .getenv p.1 p.2.1 p.2.2) s).eg =
      { s.eg with
        stage := if calls.length = c.dampTicks then .attack else .damp
        level := c.maxAtt * 2 ^ c.envFracBits
        dampCnt := c.dampTicks - calls.length }

/-- A second EGKEYON right after one from a sounding note skips the damp: the first enters Damp, the second Attack, both at
LMAX. R170's corner case, the spec's decision D21. -/
def Obligations.SecondKeyOnSkipsDamp : Prop :=
  ∀ s : State, s.eg.level ≠ Config.cfg.maxAtt * 2 ^ Config.cfg.envFracBits →
    ∃ t u : State, exec .egkeyon s = .next t ∧ exec .egkeyon t = .next u ∧ t.eg.stage = .damp ∧ u.eg.stage = .attack ∧
      t.eg.level = Config.cfg.maxAtt * 2 ^ Config.cfg.envFracBits ∧ u.eg.level = t.eg.level ∧ u.eg.dampCnt = 0

/-- EGKEYOFF: Release from every stage but Idle, the level kept; in Idle nothing but the response. R171, the spec's decision D22
and conflicts C3 and C4 (log entry 21). -/
def Obligations.EgkeyoffReleasesUnlessIdle : Prop :=
  ∀ s : State,
    (s.eg.stage = .idle → exec .egkeyoff s = .next { s with response := some ⟨.ok, 0, 0⟩ }) ∧
    (s.eg.stage ≠ .idle → exec .egkeyoff s = .next { s with
      eg := { s.eg with stage := .release, dampCnt := 0 }
      response := some ⟨.ok, 0, 0⟩ })

/-- After EGKEYOFF in Attack, Decay or Sustain the next GETENV steps at the release rate from the level held at the key-off. R185,
which the spec derives from R171 and R178. -/
def Obligations.KeyOffReleasesFromHeldLevel : Prop :=
  ∀ (amDepth amDam lfoIn : Nat) (s : State), s.eg.stage = .attack ∨ s.eg.stage = .decay ∨ s.eg.stage = .sustain →
    ∃ t u : State, exec .egkeyoff s = .next t ∧ t.eg.stage = .release ∧ t.eg.level = s.eg.level ∧
      exec (.getenv amDepth amDam lfoIn) t = .next u ∧
      u.eg.level = min (s.eg.level + Config.cfg.step s.eg.rr.toNat) (Config.cfg.maxAtt * 2 ^ Config.cfg.envFracBits)

/-- The pseudo-command KEYON: ACC is 0, LEVEL is LMAX and the stage Attack or Damp, from every state. R184, which the spec
derives from R170. -/
def Obligations.KeyonResetsPhaseAndLevel : Prop :=
  ∀ (c : Cfg) (s : State),
    let t := applyAll c Pseudo.keyon.expand s
    t.pg = { s.pg with acc := 0 } ∧ t.eg.level = c.maxAtt * 2 ^ c.envFracBits ∧
      (t.eg.stage = .attack ∨ t.eg.stage = .damp)

/-! ## GETENV, stage by stage -/

/-- GETENV in Idle holds the level and stays; at LMAX, where Idle always is, it returns MAXATT. R173 and R227, with R180 for the
value (the spec's decisions D24 and D25). -/
def Obligations.GetenvInIdleHoldsSilence : Prop :=
  ∀ (amDepth amDam lfoIn : Nat) (s : State), s.eg.stage = .idle →
    exec (.getenv amDepth amDam lfoIn) s = .next { s with
      eg := { s.eg with dampCnt := 0 }
      response := some ⟨.ok, 0, min Config.cfg.maxAtt (s.eg.level / 2 ^ Config.cfg.envFracBits + s.eg.kslAtt
        + Config.cfg.amAtt amDepth amDam lfoIn)⟩ } ∧
    (s.eg.level = Config.cfg.maxAtt * 2 ^ Config.cfg.envFracBits →
      exec (.getenv amDepth amDam lfoIn) s = .next { s with
        eg := { s.eg with dampCnt := 0 }, response := some ⟨.ok, 0, Config.cfg.maxAtt⟩ })

/-- GETENV in Damp counts DAMPCNT down, holds the level, and goes to Attack when the count reaches 0. R174, with R180 for the
value (the spec's decisions D21, D24 and D25). DAMPCNT is at least 1 in Damp (R31 (f)). -/
def Obligations.GetenvInDampCountsDown : Prop :=
  ∀ (amDepth amDam lfoIn : Nat) (s : State), s.eg.stage = .damp → 1 ≤ s.eg.dampCnt →
    exec (.getenv amDepth amDam lfoIn) s = .next { s with
      eg := { s.eg with
        dampCnt := s.eg.dampCnt - 1
        stage := if s.eg.dampCnt = 1 then .attack else .damp }
      response := some ⟨.ok, 0, min Config.cfg.maxAtt (s.eg.level / 2 ^ Config.cfg.envFracBits + s.eg.kslAtt
        + Config.cfg.amAtt amDepth amDam lfoIn)⟩ }

/-- GETENV in Attack lowers the level by STEP[AR], not below 0, and goes to Decay when it is 0. R175, with R180 for the value (the
spec's decisions D15, D23, D24 and D25). -/
def Obligations.GetenvInAttackLowersLevel : Prop :=
  ∀ (amDepth amDam lfoIn : Nat) (s : State), s.eg.stage = .attack →
    ∀ level' : Nat, (level' : Int) = max 0 ((s.eg.level : Int) - Config.cfg.step s.eg.ar.toNat) →
    exec (.getenv amDepth amDam lfoIn) s = .next { s with
      eg := { s.eg with level := level', stage := if level' = 0 then .decay else .attack, dampCnt := 0 }
      response := some ⟨.ok, 0, min Config.cfg.maxAtt (level' / 2 ^ Config.cfg.envFracBits + s.eg.kslAtt
        + Config.cfg.amAtt amDepth amDam lfoIn)⟩ }

/-- GETENV in Decay raises the level by STEP[DR] towards SL, stops exactly there, never lowers it, and goes to Sustain when it is at
or past SL. R176, with R180 for the value (the spec's decisions D23, D34, D24 and D25). -/
def Obligations.GetenvInDecayApproachesSustainLevel : Prop :=
  ∀ (amDepth amDam lfoIn : Nat) (s : State), s.eg.stage = .decay →
    let slfp := s.eg.sl * 2 ^ Config.cfg.envFracBits
    let level' := max s.eg.level (min (s.eg.level + Config.cfg.step s.eg.dr.toNat) slfp)
    exec (.getenv amDepth amDam lfoIn) s = .next { s with
      eg := { s.eg with level := level', stage := if level' ≥ slfp then .sustain else .decay, dampCnt := 0 }
      response := some ⟨.ok, 0, min Config.cfg.maxAtt (level' / 2 ^ Config.cfg.envFracBits + s.eg.kslAtt
        + Config.cfg.amAtt amDepth amDam lfoIn)⟩ }

/-- GETENV in Sustain raises the level by STEP[SR], not above LMAX, and goes to Idle when it is LMAX. R177, with R180 for the value
(the spec's decisions D23, D24 and D25). -/
def Obligations.GetenvInSustainRaisesLevel : Prop :=
  ∀ (amDepth amDam lfoIn : Nat) (s : State), s.eg.stage = .sustain →
    let lmax := Config.cfg.maxAtt * 2 ^ Config.cfg.envFracBits
    let level' := min (s.eg.level + Config.cfg.step s.eg.sr.toNat) lmax
    exec (.getenv amDepth amDam lfoIn) s = .next { s with
      eg := { s.eg with level := level', stage := if level' = lmax then .idle else .sustain, dampCnt := 0 }
      response := some ⟨.ok, 0, min Config.cfg.maxAtt (level' / 2 ^ Config.cfg.envFracBits + s.eg.kslAtt
        + Config.cfg.amAtt amDepth amDam lfoIn)⟩ }

/-- GETENV in Release raises the level by STEP[RR], not above LMAX, and goes to Idle when it is LMAX. R178, with R180 for the value
(the spec's decisions D23, D24 and D25). -/
def Obligations.GetenvInReleaseRaisesLevel : Prop :=
  ∀ (amDepth amDam lfoIn : Nat) (s : State), s.eg.stage = .release →
    let lmax := Config.cfg.maxAtt * 2 ^ Config.cfg.envFracBits
    let level' := min (s.eg.level + Config.cfg.step s.eg.rr.toNat) lmax
    exec (.getenv amDepth amDam lfoIn) s = .next { s with
      eg := { s.eg with level := level', stage := if level' = lmax then .idle else .release, dampCnt := 0 }
      response := some ⟨.ok, 0, min Config.cfg.maxAtt (level' / 2 ^ Config.cfg.envFracBits + s.eg.kslAtt
        + Config.cfg.amAtt amDepth amDam lfoIn)⟩ }

/-! ## The stage machine as a whole -/

/-- Every stage change a command makes is an edge of the transition table, with its condition. R181, which the spec derives from
R170, R171 and R173 to R178. The premise is the level's bound (R31 (c)). -/
def Obligations.StageChangesOnlyAlongTable : Prop :=
  ∀ (c : Cfg) (i : Instr) (s : State), s.eg.level ≤ c.maxAtt * 2 ^ c.envFracBits →
    let t := applyWith c i s
    let lmax := c.maxAtt * 2 ^ c.envFracBits
    t.eg.stage ≠ s.eg.stage →
      (i = .egkeyon ∧ t.eg.stage = .attack ∧ (s.eg.level = lmax ∨ c.dampTicks = 0)) ∨
      (i = .egkeyon ∧ t.eg.stage = .damp ∧ s.eg.level < lmax ∧ 1 ≤ c.dampTicks) ∨
      (i = .egkeyoff ∧ t.eg.stage = .release ∧
        (s.eg.stage = .attack ∨ s.eg.stage = .decay ∨ s.eg.stage = .sustain ∨ s.eg.stage = .damp)) ∨
      ((∃ amDepth amDam lfoIn, i = .getenv amDepth amDam lfoIn) ∧
        (s.eg.stage = .damp ∧ t.eg.stage = .attack ∧ t.eg.dampCnt = 0 ∨
          s.eg.stage = .attack ∧ t.eg.stage = .decay ∧ t.eg.level = 0 ∨
          s.eg.stage = .decay ∧ t.eg.stage = .sustain ∧ s.eg.sl * 2 ^ c.envFracBits ≤ t.eg.level ∨
          s.eg.stage = .sustain ∧ t.eg.stage = .idle ∧ t.eg.level = lmax ∨
          s.eg.stage = .release ∧ t.eg.stage = .idle ∧ t.eg.level = lmax))

/-- Attenuation never falls but by GETENV in Attack: in every other stage GETENV keeps or raises LEVEL, in Attack it keeps or lowers
it, and every other command keeps it or, EGKEYON, raises it. R183, which the spec derives from R173 to R178. The premise is
the level's bound (R31 (c)). -/
def Obligations.LevelIsMonotoneWithinStage : Prop :=
  ∀ (c : Cfg) (i : Instr) (s : State), s.eg.level ≤ c.maxAtt * 2 ^ c.envFracBits →
    let t := applyWith c i s
    (i.op = .getenv → s.eg.stage = .attack → t.eg.level ≤ s.eg.level) ∧
    (i.op = .getenv → s.eg.stage ≠ .attack → s.eg.level ≤ t.eg.level) ∧
    (i.op = .egkeyon → s.eg.level ≤ t.eg.level) ∧
    (i.op ≠ .getenv → i.op ≠ .egkeyon → t.eg.level = s.eg.level)

/-- An Attack with a nonzero step falls linearly and completes: before sample max(1, ceil(LEVEL / STEP[AR])) it is in Attack, n
steps lower after n samples, and at that sample it is in Decay at level 0 (from R175 and R182, decisions D15 and D23). -/
def Obligations.AttackReachesFullLoudness : Prop :=
  ∀ (c : Cfg) (s : State) (calls : List (Nat × Nat × Nat)), s.eg.stage = .attack → 0 < c.step s.eg.ar.toNat →
    let p := c.step s.eg.ar.toNat
    let last := max 1 ((s.eg.level + p - 1) / p)
    let t := applyAll c (calls.map fun q => .getenv q.1 q.2.1 q.2.2) s
    (calls.length < last → t.eg.stage = .attack ∧ t.eg.level = s.eg.level - calls.length * p) ∧
    (calls.length = last → t.eg.stage = .decay ∧ t.eg.level = 0)

/-- A Release with a nonzero step rises linearly and ends in Idle: before sample max(1, ceil((LMAX - LEVEL) / STEP[RR])) it is in
Release, n steps higher after n samples, and from that sample on it is in Idle at LMAX (from R178 and R173, decision D23). -/
def Obligations.ReleaseReachesIdle : Prop :=
  ∀ (c : Cfg) (s : State) (calls : List (Nat × Nat × Nat)), s.eg.stage = .release → 0 < c.step s.eg.rr.toNat →
    s.eg.level ≤ c.maxAtt * 2 ^ c.envFracBits →
    let p := c.step s.eg.rr.toNat
    let lmax := c.maxAtt * 2 ^ c.envFracBits
    let last := max 1 ((lmax - s.eg.level + p - 1) / p)
    let t := applyAll c (calls.map fun q => .getenv q.1 q.2.1 q.2.2) s
    (calls.length < last → t.eg.stage = .release ∧ t.eg.level = s.eg.level + calls.length * p) ∧
    (last ≤ calls.length → t.eg.stage = .idle ∧ t.eg.level = lmax)

/-- A stage whose actual rate is 0 holds its level and its stage for any number of samples, unless it already is where it would
end. R188 and R112: the exact meaning of a zero rate is the spec's decision D16. -/
def Obligations.ZeroRateHoldsForEver : Prop :=
  ∀ (c : Cfg) (s : State) (calls : List (Nat × Nat × Nat)), c.Wf →
    (s.eg.stage = .attack ∧ s.eg.ar = 0 ∧ 0 < s.eg.level ∨
      s.eg.stage = .decay ∧ s.eg.dr = 0 ∧ s.eg.level < s.eg.sl * 2 ^ c.envFracBits ∨
      s.eg.stage = .sustain ∧ s.eg.sr = 0 ∧ s.eg.level < c.maxAtt * 2 ^ c.envFracBits ∨
      s.eg.stage = .release ∧ s.eg.rr = 0 ∧ s.eg.level < c.maxAtt * 2 ^ c.envFracBits) →
    let t := applyAll c (calls.map fun q => .getenv q.1 q.2.1 q.2.2) s
    t.eg.stage = s.eg.stage ∧ t.eg.level = s.eg.level

/-! ## Errors and whole-machine rules -/

/-- The five commands that are no setters always complete with status OK (R216); and after any command whose response is
InvalidParameter the state is exactly what it was before, but for that response (R214). -/
def Obligations.OnlySettersRaiseAndThenNothingChanges : Prop :=
  (∀ (i : Instr) (s : State), i.op ∈ [Op.pgkeyon, .egkeyon, .egkeyoff, .getphase, .getenv] →
    ∃ (t : State) (v : Nat), exec i s = .next t ∧ t.response = some ⟨.ok, 0, v⟩) ∧
  ∀ (i : Instr) (s t : State) (r : Response), exec i s = .next t → t.response = some r → r.status = .invalidParameter →
    t = { s with response := some r }

/-- Idle is a stage of the envelope, no power state: in Idle every command executes, GETPHASE advances the accumulator and GETENV
returns MAXATT and stays (R227). The premise on the level is the invariant R31 (e). -/
def Obligations.IdleExecutesEveryCommand : Prop :=
  ∀ s : State, s.eg.stage = .idle → s.eg.level = Config.cfg.maxAtt * 2 ^ Config.cfg.envFracBits →
    (∀ i : Instr, ∃ t : State, exec i s = .next t) ∧
    (∀ vdepth vphase fbin : Nat, ∃ t : State, exec (.getphase vdepth vphase fbin) s = .next t ∧
      t.pg.acc = (s.pg.acc + Config.cfg.vibInc s.pg.inc vdepth vphase) % 2 ^ Config.cfg.phaseBits) ∧
    ∀ amDepth amDam lfoIn : Nat, ∃ t : State, exec (.getenv amDepth amDam lfoIn) s = .next t ∧
      t.response = some ⟨.ok, 0, Config.cfg.maxAtt⟩ ∧ t.eg.stage = .idle

/-- A command writes no register that the access table does not give it a w for. R30, which the spec derives. -/
def Obligations.CommandsWriteOnlyTheirRegisters : Prop :=
  ∀ (c : Cfg) (i : Instr) (s : State) (r : Reg), r ∉ writes i.op → r.read (applyWith c i s) = r.read s

/-- A command's response, and what a command that completes leaves in the registers it writes, depend only on the registers
the access table gives it an r for. R30, which the spec derives; the premise is the invariant, for EGKEYOFF in Idle leaves DAMPCNT
alone: R31, with the clauses beyond it log entry 27. -/
def Obligations.CommandsReadOnlyTheirRegisters : Prop :=
  ∀ (c : Cfg) (i : Instr) (s t : State), Inv c s → Inv c t → (∀ r ∈ reads i.op, r.read s = r.read t) →
    (applyWith c i s).response = (applyWith c i t).response ∧
    (legalOperands c i = true → ∀ r ∈ writes i.op, r.read (applyWith c i s) = r.read (applyWith c i t))

/-- The two generators share nothing: after any sequence of commands each generator's registers, and the responses to its commands,
are those of its own commands alone, from any state that agrees on its own registers (R20). -/
def Obligations.GeneratorsAreIndependent : Prop :=
  ∀ (c : Cfg) (is : List Instr) (s t : State),
    (s.pg = t.pg →
      (applyAll c is s).pg = (applyAll c (is.filter isPhaseCommand) t).pg ∧
      (is.zip (responses c is s)).filter (fun p => isPhaseCommand p.1) =
        (is.filter isPhaseCommand).zip (responses c (is.filter isPhaseCommand) t)) ∧
    (s.eg = t.eg →
      (applyAll c is s).eg = (applyAll c (is.filter fun i => !isPhaseCommand i) t).eg ∧
      (is.zip (responses c is s)).filter (fun p => !isPhaseCommand p.1) =
        (is.filter fun i => !isPhaseCommand i).zip (responses c (is.filter fun i => !isPhaseCommand i) t))

/-- A setter, PGKEYON or EGKEYOFF issued twice leaves the state, response included, that it left the first time. R144 and
R186, which the spec derives; R55 quotes the source. The response as a field of the state is log entry 3. -/
def Obligations.SettersAreIdempotent : Prop :=
  ∀ (i : Instr) (s t : State),
    i.op ∈ [Op.setfreq, .setatt, .setar, .setdr, .setsl, .setsr, .setrr, .pgkeyon, .egkeyoff] →
    exec i s = .next t → exec i t = .next t

/-- Several instances under one configuration do not interact: after any interleaving each instance is in the state its own
commands alone leave it in. R63 and R225, which the spec derives; instances as a list
with a schedule are log entry 28. -/
def Obligations.InstancesAreIndependent : Prop :=
  ∀ (c : Cfg) (schedule : List (Nat × Instr)) (v : Voice) (k : Nat),
    (Voice.run c schedule v)[k]? = v[k]?.map (applyAll c (commandsFor k schedule))

/-! ## Encoding -/

/-- Decoding the word of a well-formed command gives the command back, with every operand. R84, the spec's decisions D2 and
D5. -/
def Obligations.DecodeOfEncode : Prop :=
  ∀ i : Instr, i.wellFormed = true → decode (encode i) = .ok i

/-- Encoding what a legal word decodes to gives the word back, and it is a well-formed command. R84, the spec's decisions D2
and D5. -/
def Obligations.EncodeOfDecode : Prop :=
  ∀ (w : CommandWord) (i : Instr), decode w = .ok i → encode i = w ∧ i.wellFormed = true

/-- The rows of spec/opcode_table.json: mnemonic's row, match, mask. -/
def Sys2Proof.opcodeRows : List (Op × CommandWord × CommandWord) :=
  [(.setfreq, 0x0100000000000000, 0xFF00000000000000),
   (.pgkeyon, 0x0200000000000000, 0xFFFFFFFFFFFFFFFF),
   (.getphase, 0x0300000000000000, 0xFF000000000000FF),
   (.setatt, 0x1000000000000000, 0xFF000000000000FF),
   (.setar, 0x1100000000000000, 0xFF000000000000FF),
   (.setdr, 0x1200000000000000, 0xFF000000000000FF),
   (.setsl, 0x1300000000000000, 0xFF0000FFFFFFFFFF),
   (.setsr, 0x1400000000000000, 0xFF000000000000FF),
   (.setrr, 0x1500000000000000, 0xFF000000000000FF),
   (.egkeyon, 0x1600000000000000, 0xFFFFFFFFFFFFFFFF),
   (.egkeyoff, 0x1700000000000000, 0xFFFFFFFFFFFFFFFF),
   (.getenv, 0x1800000000000000, 0xFF000000000000FF)]

/-- A word decodes to a command of a row exactly if its masked bits are the row's match. R72 and R74 to R76 (the spec's decisions
D2 and D5), with the opcode table's own numbers. -/
def Obligations.WordsDecodeByMaskAndMatch : Prop :=
  ∀ row ∈ opcodeRows, ∀ w : CommandWord,
    (∃ i, decode w = .ok i ∧ i.op = row.1) ↔ w &&& row.2.2 = row.2.1

/-- The words of the spec's worked encodings decode to their commands. R85, which the spec computes from R71 and R74. -/
def Obligations.WorkedEncodingsDecode : Prop :=
  decode 0x0103E80007000800 = .ok (.setfreq 1000 7 8 0) ∧
  decode 0x0200000000000000 = .ok .pgkeyon ∧
  decode 0x030002000503E700 = .ok (.getphase 2 5 999) ∧
  decode 0x1002BC0004000100 = .ok (.setatt 700 4 1) ∧
  decode 0x11000F0001000F00 = .ok (.setar 15 1 15) ∧
  decode 0x1300020000000000 = .ok (.setsl 2) ∧
  decode 0x1700000000000000 = .ok .egkeyoff ∧
  decode 0x1800010003001F00 = .ok (.getenv 1 3 31)

/-- A word stored as bytes, most significant first, decodes as the word; a string that is not eight bytes long is rejected. R53 and
R79, the spec's decisions D28 and D2. -/
def Obligations.StoredBytesDecodeAsWord : Prop :=
  (∀ w : CommandWord, decodeBytes (wordBytes w) = decode w) ∧
  ∀ bs : List Byte, bs.length ≠ 8 → decodeBytes bs = .error (.wrongByteCount bs.length)

/-- Whatever text is assembled, every word it gives is a legal command. R86 and R84, the spec's decisions D35, D2 and D5. -/
def Obligations.AssembledWordsAreLegal : Prop :=
  ∀ (text : String) (ws : List CommandWord), assemble text = .ok ws → ∀ w ∈ ws, ∃ i, decode w = .ok i

/-! ## Steps and runs -/

/-- A step executes the decoded command, at the state in which the driver has one input fewer to present (R3, R58; the
port is the spec's decision D1, the queue of inputs log entry 4). -/
def Obligations.StepRunsDecodedCommand : Prop :=
  ∀ (s : State) (w : CommandWord) (rest : List Input) (i : Instr), s.inputs = .command w :: rest → decode w = .ok i →
    step s = exec i { s with inputs := rest }

/-- A step gives no next state exactly if the next input is a word that matches no row of the opcode table, and then it refuses
the word. R77, R75, R76 and R220, the spec's decision D5 (log entry 9). That no other input stops a step is R255 for a legal
word; that a step with nothing presented answers next (log entry 5), and one that takes RESET from the queue of inputs (log
entries 4 and 6), is the model's choice. -/
def Obligations.StepStopsOnlyOnIllegalWord : Prop :=
  ∀ s : State, ((∀ t, step s ≠ .next t) ↔
      ∃ w rest, s.inputs = .command w :: rest ∧ ∀ row ∈ opcodeRows, w &&& row.2.2 ≠ row.2.1) ∧
    ((∀ t, step s ≠ .next t) → ∃ e, step s = .refused (.illegalWord e))

/-- With nothing presented no register changes and nothing is returned (R19, R217; the step that does nothing is log entry
5, the response that a step leaves log entry 3); and asserting RESET puts every register into its reset state whatever the
state was (R240, R241, the spec's decision D26; as an input of the queue log entry 6). -/
def Obligations.StepWithoutCommand : Prop :=
  (∀ s : State, s.inputs = [] → step s = .next { s with response := none }) ∧
  ∀ (s : State) (rest : List Input), s.inputs = .reset :: rest →
    step s = .next {
      pg := { fnum := 0, block := 0, mult := 0, dt := 0, ksn := 0, inc := 0, acc := 0 }
      eg := {
        stage := .idle, level := Config.cfg.maxAtt * 2 ^ Config.cfg.envFracBits, dampCnt := 0
        ar := 0, dr := 0, sr := 0, rr := 0, sl := Config.cfg.slMap 0, kslAtt := 0 }
      response := none
      inputs := rest }

/-- Presenting well-formed commands, each as its word, runs them one after the other: as many steps as commands leave the state
the sequence leaves (from R22, R58 and R84; the queue of inputs is log entry 4). -/
def Obligations.RunIsCommandSequence : Prop :=
  ∀ (is : List Instr) (s : State) (rest : List Input), (∀ i ∈ is, i.wellFormed = true) →
    s.inputs = is.map (fun i => Input.command (encode i)) ++ rest →
    Host.Core.run Sys2Proof.core is.length s = .next (applyAll Config.cfg is { s with inputs := rest })

/-- A driver that presents only legal words is never stopped: any number of steps gives a next state that keeps the
invariants, with that many inputs fewer to present (from R255, R77 and R31). The model's choice: the queue of inputs (log entry
4), the step with nothing presented, by which the number of steps is not bounded by the inputs (log entry 5), RESET in the
queue (log entry 6), and the clauses of the invariants beyond R31 (log entry 27). -/
def Obligations.LegalInputsNeverStop : Prop :=
  ∀ (n : Nat) (s : State), Inv Config.cfg s → LegalInputs s →
    ∃ t : State, Host.Core.run Sys2Proof.core n s = .next t ∧ Inv Config.cfg t ∧ LegalInputs t ∧
      t.inputs = s.inputs.drop n

/-! ## Reset and invariants -/

/-- The state after reset, register by register. R32 and R241, the spec's decision D26 (log entry 7); no response and no
inputs are the model's choice (log entries 3 and 4). -/
def Obligations.ResetState : Prop :=
  State.reset = {
    pg := { fnum := 0, block := 0, mult := 0, dt := 0, ksn := 0, inc := 0, acc := 0 }
    eg := {
      stage := .idle, level := Config.cfg.maxAtt * 2 ^ Config.cfg.envFracBits, dampCnt := 0
      ar := 0, dr := 0, sr := 0, rr := 0, sl := Config.cfg.slMap 0, kslAtt := 0 }
    response := none
    inputs := [] }

/-- From any state the setters with all-zero operands and PGKEYON leave the reset value in every register but STAGE, LEVEL and
DAMPCNT, which they keep. R241, the spec's decision D26. -/
def Obligations.ZeroSettersGiveResetRegisters : Prop :=
  ∀ (c : Cfg) (s : State), c.Wf →
    let t := applyAll c [.setfreq 0 0 0 0, .pgkeyon, .setatt 0 0 0, .setar 0 0 0, .setdr 0 0 0, .setsl 0, .setsr 0 0 0,
      .setrr 0 0 0] s
    t.pg = (State.resetWith c).pg ∧
    t.eg = { (State.resetWith c).eg with stage := s.eg.stage, level := s.eg.level, dampCnt := s.eg.dampCnt }

/-- The outputs of the reset state: the first GETPHASE returns 0 and leaves ACC = VIB_INC(0, vdepth, vphase), which is 0 at depth 0;
GETENV returns MAXATT and stays in Idle. R242, which the spec derives from R241, R136 and R173; the reset
values are its decision D26 (log entry 7). -/
def Obligations.OutputsOfResetState : Prop :=
  ∀ a b d : Nat, a ≤ 65535 → b ≤ 65535 →
    ∃ t u : State, exec (.getphase a b d) State.reset = .next t ∧ t.response = some ⟨.ok, 0, 0⟩ ∧
      t.pg.acc = Config.cfg.vibInc 0 a b ∧ (a = 0 → t.pg.acc = 0) ∧
      exec (.getenv a b d) State.reset = .next u ∧ u.response = some ⟨.ok, 0, Config.cfg.maxAtt⟩ ∧
      u.eg = State.reset.eg

/-- The invariants hold after reset, under this machine's configuration and every other well-formed one. R31 and R32, which the spec
derives and decides (D26, log entry 7); the clauses beyond R31 are log entry 27. -/
def Obligations.InvHoldsAtReset : Prop :=
  Inv Config.cfg State.reset ∧ ∀ c : Cfg, c.Wf → Inv c (State.resetWith c)

/-- Every step keeps the invariants, from every state that meets them: ACC, INC and LEVEL in range, Idle and Damp silent, DAMPCNT
counting in Damp only, SL and DT in range, KSN, INC and KSLATT what the frequency registers and tables give, the response's
fields as R80 says. R31, which the spec derives; the clauses beyond R31 are log entry 27, and the steps that are no command's,
idle or RESET, are log entries 5 and 6. -/
def Obligations.StepKeepsInv : Prop :=
  ∀ s t : State, Inv Config.cfg s → step s = .next t → Inv Config.cfg t

/-- Under every well-formed configuration, whatever its DAMP_TICKS, every command keeps the invariants. R31, which the
spec derives; the clauses beyond R31 are log entry 27. -/
def Obligations.CommandsKeepInvUnderAnyConfig : Prop :=
  ∀ (c : Cfg) (i : Instr) (s : State), c.Wf → Inv c s → Inv c (applyWith c i s)
end

