-- ==== Sys2Proof/Laws/Config.lean ====
section
/-! SUPPORT. The configuration of this machine is well formed (R119, R244), and its opaque values rule out no well-formed
configuration: each is one that some OPEN values give, at every index R51 reads (log entry 1). -/

namespace Sys2Proof

theorem Cfg.pmod_pos (c : Cfg) : 0 < c.pmod := Nat.two_pow_pos _

/-- The sample rate is positive (R10). -/
theorem Cfg.fsHz_pos (c : Cfg) : 0 < c.fsHz.val := c.fsHz.pos

/-- The size of an attenuation unit is positive (R10). -/
theorem Cfg.attUnitDb_pos (c : Cfg) : 0 < c.attUnitDb.val := c.attUnitDb.pos

theorem Cfg.ofOpen_wf (o : OpenValues) : (Cfg.ofOpen o).Wf where
  phaseBits_pos := Nat.le_add_left 1 _
  dtRows_ge := Nat.le_add_left 4 _
  dtRows_le := by have := o.dtRowsExtra.isLt; show o.dtRowsExtra.val + 4 ≤ 256; omega
  dtInc_zero _ _ := rfl
  mult2_zero := rfl
  mult2_eq m h1 h8 := by
    show (if m = 0 then 1 else if m ≤ 8 then 2 * m else o.mult2 m) = 2 * m
    rw [if_neg (by omega), if_pos h8]
  vibInc_lt inc h depth _ vphase _ := by
    show (if depth = 0 then inc else o.vibInc inc depth vphase % 2 ^ (o.phaseBitsPred + 1)) < _
    split
    · exact h
    · exact Nat.mod_lt _ (Nat.two_pow_pos _)
  vibInc_depth_zero _ _ _ _ := rfl
  maxAtt_pos := Nat.le_add_left 1 _
  step_zero := rfl
  slMap_le s _ := by
    show (if s = 15 then o.maxAttPred + 1 else min (o.slMap s) (o.maxAttPred + 1)) ≤ o.maxAttPred + 1
    split <;> omega
  slMap_top := rfl
  kslFnumBits_pos := Nat.le_add_left 1 _
  kslFnumBits_le := o.kslFnumBitsPred.isLt
  kslAttFn_off _ _ _ _ := rfl
  kslAttFn_top ksl _ block _ f1 _ f2 _ h := by
    have h' : f1 >>> (10 - (o.kslFnumBitsPred.val + 1)) = f2 >>> (10 - (o.kslFnumBitsPred.val + 1)) := h
    show (if ksl = 0 then 0 else o.kslAtt ksl block (f1 >>> _)) = (if ksl = 0 then 0 else o.kslAtt ksl block (f2 >>> _))
    rw [h']
  amAtt_off _ _ _ _ := rfl

theorem Config.cfg_wf : Config.cfg.Wf := Cfg.ofOpen_wf _

@[simp] theorem Config.cfg_dampTicks : Config.cfg.dampTicks = 1 := rfl

theorem Cfg.Wf.lmax_pos {c : Cfg} (h : c.Wf) : 0 < c.lmax := Nat.mul_pos h.maxAtt_pos (Nat.two_pow_pos _)

theorem Cfg.Wf.slMap_shift_le {c : Cfg} (h : c.Wf) {s : Nat} (hs : s ≤ 15) : c.slMap s <<< c.envFracBits ≤ c.lmax := by
  rw [Nat.shiftLeft_eq]
  exact Nat.mul_le_mul_right _ (h.slMap_le s hs)

/-- Two configurations that agree at every index the rules read (R51, R52). -/
structure Cfg.Agree (c e : Cfg) : Prop where
  phaseBits : c.phaseBits = e.phaseBits
  fixedShift : c.fixedShift = e.fixedShift
  dtRows : c.dtRows = e.dtRows
  dtInc : ∀ d < c.dtRows, ∀ k ≤ 15, c.dtInc d k = e.dtInc d k
  mult2 : ∀ m ≤ 15, c.mult2 m = e.mult2 m
  vibInc : ∀ inc < c.pmod, ∀ depth ≤ 65535, ∀ vphase ≤ 65535, c.vibInc inc depth vphase = e.vibInc inc depth vphase
  maxAtt : c.maxAtt = e.maxAtt
  envFracBits : c.envFracBits = e.envFracBits
  step : ∀ r ≤ 63, c.step r = e.step r
  ksrAdj : ∀ ksr ≤ 1, ∀ k ≤ 15, c.ksrAdj ksr k = e.ksrAdj ksr k
  slMap : ∀ s ≤ 15, c.slMap s = e.slMap s
  kslAttFn : ∀ ksl ≤ 3, ∀ block ≤ 7, ∀ fnum ≤ 1023, c.kslAttFn ksl block fnum = e.kslAttFn ksl block fnum
  kslFnumBits : c.kslFnumBits = e.kslFnumBits
  amAtt : ∀ d ≤ 65535, ∀ m ≤ 65535, ∀ l ≤ 65535, c.amAtt d m l = e.amAtt d m l
  dampTicks : c.dampTicks = e.dampTicks
  fsHz : c.fsHz = e.fsHz
  attUnitDb : c.attUnitDb = e.attUnitDb

/-- The OPEN values of a well-formed configuration. -/
def Cfg.openOf (c : Cfg) (h : c.Wf) : OpenValues where
  phaseBitsPred := c.phaseBits - 1
  fixedShift := c.fixedShift
  dtRowsExtra := ⟨c.dtRows - 4, by have := h.dtRows_le; omega⟩
  dtInc := c.dtInc
  mult2 := c.mult2
  vibInc := c.vibInc
  maxAttPred := c.maxAtt - 1
  envFracBits := c.envFracBits
  step := c.step
  ksrAdj := c.ksrAdj
  slMap := c.slMap
  kslAtt ksl block top := c.kslAttFn ksl block (top <<< (10 - c.kslFnumBits))
  kslFnumBitsPred := ⟨c.kslFnumBits - 1, by have := h.kslFnumBits_pos; have := h.kslFnumBits_le; omega⟩
  amAtt := c.amAtt
  fsHz := c.fsHz
  attUnitDb := c.attUnitDb

/-- No well-formed configuration with the spec's DAMP_TICKS is ruled out. -/
theorem Cfg.Wf.agree_ofOpen {c : Cfg} (h : c.Wf) (hd : c.dampTicks = 1) : c.Agree (Cfg.ofOpen (c.openOf h)) where
  phaseBits := (Nat.sub_add_cancel h.phaseBits_pos).symm
  fixedShift := rfl
  dtRows := (Nat.sub_add_cancel h.dtRows_ge).symm
  dtInc d _ k hk := by
    show _ = if d = 0 then 0 else c.dtInc d k
    split
    · next h0 => rw [h0, h.dtInc_zero k hk]
    · rfl
  mult2 m _ := by
    show _ = if m = 0 then 1 else if m ≤ 8 then 2 * m else c.mult2 m
    split
    · next h0 => rw [h0, h.mult2_zero]
    · split
      · next h0 h8 => exact h.mult2_eq m (by omega) h8
      · rfl
  vibInc inc hi depth hd' vphase hv := by
    show _ = if depth = 0 then inc else c.vibInc inc depth vphase % 2 ^ (c.phaseBits - 1 + 1)
    split
    · next h0 => rw [h0, h.vibInc_depth_zero inc hi vphase hv]
    · rw [Nat.sub_add_cancel h.phaseBits_pos]
      exact (Nat.mod_eq_of_lt (h.vibInc_lt inc hi depth hd' vphase hv)).symm
  maxAtt := (Nat.sub_add_cancel h.maxAtt_pos).symm
  envFracBits := rfl
  step r _ := by
    show _ = if r = 0 then 0 else c.step r
    split
    · next h0 => rw [h0, h.step_zero]
    · rfl
  ksrAdj _ _ _ _ := rfl
  slMap s hs := by
    show _ = if s = 15 then c.maxAtt - 1 + 1 else min (c.slMap s) (c.maxAtt - 1 + 1)
    rw [Nat.sub_add_cancel h.maxAtt_pos]
    split
    · next h0 => rw [h0, h.slMap_top]
    · exact (Nat.min_eq_left (h.slMap_le s hs)).symm
  kslAttFn ksl hk block hb fnum hf := by
    show _ = if ksl = 0 then 0 else
      c.kslAttFn ksl block (fnum >>> (10 - (c.kslFnumBits - 1 + 1)) <<< (10 - c.kslFnumBits))
    rw [Nat.sub_add_cancel h.kslFnumBits_pos]
    split
    · next h0 => rw [h0, h.kslAttFn_off block hb fnum hf]
    · have hle : fnum >>> (10 - c.kslFnumBits) <<< (10 - c.kslFnumBits) ≤ fnum := by
        rw [Nat.shiftLeft_eq, Nat.shiftRight_eq_div_pow]
        exact Nat.div_mul_le_self _ _
      refine h.kslAttFn_top ksl hk block hb fnum hf _ (hle.trans hf) ?_
      rw [Nat.shiftLeft_shiftRight]
  kslFnumBits := (Nat.sub_add_cancel h.kslFnumBits_pos).symm
  amAtt d _ m hm l hl := by
    show _ = if d = 0 then 0 else c.amAtt d m l
    split
    · next h0 => rw [h0, h.amAtt_off m hm l hl]
    · rfl
  dampTicks := hd
  fsHz := rfl
  attUnitDb := rfl

end Sys2Proof
end

