-- ==== Sys2Proof/Laws/State.lean ====
section
/-! SUPPORT. One lemma per field of State for each shared update: what the update writes and what it leaves. -/

namespace Sys2Proof.Machine

open Sys2Proof

@[simp] theorem mapPhase_pg (f : PhaseRegs → PhaseRegs) (s : State) : (s.mapPhase f).pg = f s.pg := rfl
@[simp] theorem mapPhase_eg (f : PhaseRegs → PhaseRegs) (s : State) : (s.mapPhase f).eg = s.eg := rfl
@[simp] theorem mapPhase_response (f : PhaseRegs → PhaseRegs) (s : State) : (s.mapPhase f).response = s.response := rfl
@[simp] theorem mapPhase_inputs (f : PhaseRegs → PhaseRegs) (s : State) : (s.mapPhase f).inputs = s.inputs := rfl

@[simp] theorem mapEnv_pg (f : EnvRegs → EnvRegs) (s : State) : (s.mapEnv f).pg = s.pg := rfl
@[simp] theorem mapEnv_eg (f : EnvRegs → EnvRegs) (s : State) : (s.mapEnv f).eg = f s.eg := rfl
@[simp] theorem mapEnv_response (f : EnvRegs → EnvRegs) (s : State) : (s.mapEnv f).response = s.response := rfl
@[simp] theorem mapEnv_inputs (f : EnvRegs → EnvRegs) (s : State) : (s.mapEnv f).inputs = s.inputs := rfl

@[simp] theorem withResponse_pg (r : Response) (s : State) : (s.withResponse r).pg = s.pg := rfl
@[simp] theorem withResponse_eg (r : Response) (s : State) : (s.withResponse r).eg = s.eg := rfl
@[simp] theorem withResponse_response (r : Response) (s : State) : (s.withResponse r).response = some r := rfl
@[simp] theorem withResponse_inputs (r : Response) (s : State) : (s.withResponse r).inputs = s.inputs := rfl

@[simp] theorem returnOk_pg (v : Nat) (s : State) : (returnOk v s).pg = s.pg := rfl
@[simp] theorem returnOk_eg (v : Nat) (s : State) : (returnOk v s).eg = s.eg := rfl
@[simp] theorem returnOk_response (v : Nat) (s : State) : (returnOk v s).response = some (Response.okWith v) := rfl
@[simp] theorem returnOk_inputs (v : Nat) (s : State) : (returnOk v s).inputs = s.inputs := rfl

@[simp] theorem raise_pg (k : BitVec 3) (s : State) : (raiseInvalidParameter k s).pg = s.pg := rfl
@[simp] theorem raise_eg (k : BitVec 3) (s : State) : (raiseInvalidParameter k s).eg = s.eg := rfl
@[simp] theorem raise_response (k : BitVec 3) (s : State) :
    (raiseInvalidParameter k s).response = some (Response.invalid k) := rfl
@[simp] theorem raise_inputs (k : BitVec 3) (s : State) : (raiseInvalidParameter k s).inputs = s.inputs := rfl

@[simp] theorem assertReset_pg (c : Cfg) (s : State) : (assertReset c s).pg = PhaseRegs.reset := rfl
@[simp] theorem assertReset_eg (c : Cfg) (s : State) : (assertReset c s).eg = EnvRegs.reset c := rfl
@[simp] theorem assertReset_response (c : Cfg) (s : State) : (assertReset c s).response = none := rfl
@[simp] theorem assertReset_inputs (c : Cfg) (s : State) : (assertReset c s).inputs = s.inputs := rfl

@[simp] theorem await_pg (s : State) : (awaitCommand s).pg = s.pg := rfl
@[simp] theorem await_eg (s : State) : (awaitCommand s).eg = s.eg := rfl
@[simp] theorem await_response (s : State) : (awaitCommand s).response = none := rfl
@[simp] theorem await_inputs (s : State) : (awaitCommand s).inputs = s.inputs := rfl

@[simp] theorem okWith_status (v : Nat) : (Response.okWith v).status = .ok := rfl
@[simp] theorem okWith_info (v : Nat) : (Response.okWith v).info = 0 := rfl
@[simp] theorem okWith_data (v : Nat) : (Response.okWith v).data = v := rfl
@[simp] theorem invalid_status (k : BitVec 3) : (Response.invalid k).status = .invalidParameter := rfl
@[simp] theorem invalid_info (k : BitVec 3) : (Response.invalid k).info = k := rfl
@[simp] theorem invalid_data (k : BitVec 3) : (Response.invalid k).data = 0 := rfl

end Sys2Proof.Machine
end

