-- ==== Sys2Proof/Laws/Ops.lean ====
section
/-! SUPPORT. Everything a shared operation can do, said once: a setter raises or completes, and when each check passes. -/

namespace Sys2Proof.Machine

open Sys2Proof

/-- A setter either writes nothing and reports the first operand out of range, or writes and reports OK. -/
theorem completeSetter_cases (o : Option (BitVec 3)) (w : State → State) (s : State) :
    (∃ k, o = some k ∧ completeSetter o w s = raiseInvalidParameter k s) ∨
      (o = none ∧ completeSetter o w s = returnOk 0 (w s)) := by
  cases o with
  | none => exact .inr ⟨rfl, rfl⟩
  | some k => exact .inl ⟨k, rfl, rfl⟩

@[simp] theorem completeSetter_none (w : State → State) (s : State) :
    completeSetter none w s = returnOk 0 (w s) := rfl

@[simp] theorem completeSetter_some (k : BitVec 3) (w : State → State) (s : State) :
    completeSetter (some k) w s = raiseInvalidParameter k s := rfl

theorem completeSetter_inputs (o : Option (BitVec 3)) (w : State → State) (hw : ∀ s, (w s).inputs = s.inputs)
    (s : State) : (completeSetter o w s).inputs = s.inputs := by
  cases o with
  | none => exact hw s
  | some k => rfl

theorem checkSetfreq_none_iff (c : Cfg) (fnum block multiple d : Nat) :
    checkSetfreq c fnum block multiple d = none ↔ fnum ≤ 1023 ∧ block ≤ 7 ∧ multiple ≤ 15 ∧ d < c.dtRows := by
  unfold checkSetfreq
  split_ifs <;> simp <;> omega

theorem checkSetatt_none_iff (fnum block ksl : Nat) :
    checkSetatt fnum block ksl = none ↔ fnum ≤ 1023 ∧ block ≤ 7 ∧ ksl ≤ 3 := by
  unfold checkSetatt
  split_ifs <;> simp <;> omega

theorem checkRate_none_iff (rate ksr ksn : Nat) :
    checkRate rate ksr ksn = none ↔ rate ≤ 15 ∧ ksr ≤ 1 ∧ ksn ≤ 15 := by
  unfold checkRate
  split_ifs <;> simp <;> omega

theorem checkSetsl_none_iff (sl : Nat) : checkSetsl sl = none ↔ sl ≤ 15 := by
  unfold checkSetsl
  split_ifs <;> simp <;> omega

/-- Each check reports a position from 1 to 4 (R211). -/
theorem checkSetfreq_position {c : Cfg} {fnum block multiple d : Nat} {k : BitVec 3}
    (h : checkSetfreq c fnum block multiple d = some k) : 1 ≤ k.toNat ∧ k.toNat ≤ 4 := by
  unfold checkSetfreq at h
  split_ifs at h <;> simp only [Option.some.injEq] at h <;> subst h <;> decide

theorem checkSetatt_position {fnum block ksl : Nat} {k : BitVec 3} (h : checkSetatt fnum block ksl = some k) :
    1 ≤ k.toNat ∧ k.toNat ≤ 4 := by
  unfold checkSetatt at h
  split_ifs at h <;> simp only [Option.some.injEq] at h <;> subst h <;> decide

theorem checkRate_position {rate ksr ksn : Nat} {k : BitVec 3} (h : checkRate rate ksr ksn = some k) :
    1 ≤ k.toNat ∧ k.toNat ≤ 4 := by
  unfold checkRate at h
  split_ifs at h <;> simp only [Option.some.injEq] at h <;> subst h <;> decide

theorem checkSetsl_position {sl : Nat} {k : BitVec 3} (h : checkSetsl sl = some k) : 1 ≤ k.toNat ∧ k.toNat ≤ 4 := by
  unfold checkSetsl at h
  split_ifs at h
  simp only [Option.some.injEq] at h
  subst h
  decide

end Sys2Proof.Machine
end

