-- ==== Sys2Proof/Laws/Commands.lean ====
section
/-! SUPPORT. What the commands do, said once for every later proof: `exec` is `applyWith` at this machine's configuration; a
command leaves the inputs and the other generator alone; the three kinds of step. -/

namespace Sys2Proof.Machine

open Sys2Proof

/-- Every command answers a next state: CORE never stops of its own accord (R255). -/
theorem exec_eq (i : Instr) (s : State) : exec i s = .next (applyWith Config.cfg i s) := by cases i <;> rfl

@[simp] theorem applyAll_nil (c : Cfg) (s : State) : applyAll c [] s = s := rfl
@[simp] theorem applyAll_cons (c : Cfg) (i : Instr) (is : List Instr) (s : State) :
    applyAll c (i :: is) s = applyAll c is (applyWith c i s) := rfl
@[simp] theorem responses_nil (c : Cfg) (s : State) : responses c [] s = [] := rfl
@[simp] theorem responses_cons (c : Cfg) (i : Instr) (is : List Instr) (s : State) :
    responses c (i :: is) s = (applyWith c i s).response.toList ++ responses c is (applyWith c i s) := rfl

theorem applyAll_append (c : Cfg) (is js : List Instr) (s : State) :
    applyAll c (is ++ js) s = applyAll c js (applyAll c is s) := by
  induction is generalizing s with
  | nil => rfl
  | cons i is ih => exact ih _

/-- Everything a command can do: raise InvalidParameter, with its operands out of range, or complete, writing the registers
of its own generator only (R20, R81). -/
theorem applyWith_cases (c : Cfg) (i : Instr) (s : State) :
    (∃ k : BitVec 3, 1 ≤ k.toNat ∧ k.toNat ≤ 4 ∧ applyWith c i s = raiseInvalidParameter k s) ∨
      (isPhaseCommand i = true ∧ ∃ v f, applyWith c i s = returnOk v (s.mapPhase f)) ∨
      (isPhaseCommand i = false ∧ ∃ v f, applyWith c i s = returnOk v (s.mapEnv f)) := by
  cases i with
  | setfreq fnum block multiple d =>
    cases h : checkSetfreq c fnum block multiple d with
    | some k => exact .inl ⟨k, (checkSetfreq_position h).1, (checkSetfreq_position h).2, by simp only [applyWith, setfreq, h, completeSetter_some]⟩
    | none => exact .inr (.inl ⟨rfl, _, _, by simp only [applyWith, setfreq, h, completeSetter_none]; rfl⟩)
  | setatt fnum block ksl =>
    cases h : checkSetatt fnum block ksl with
    | some k => exact .inl ⟨k, (checkSetatt_position h).1, (checkSetatt_position h).2, by simp only [applyWith, setatt, h, completeSetter_some]⟩
    | none => exact .inr (.inr ⟨rfl, _, _, by simp only [applyWith, setatt, h, completeSetter_none]; rfl⟩)
  | setar rate ksr ksn =>
    cases h : checkRate rate ksr ksn with
    | some k => exact .inl ⟨k, (checkRate_position h).1, (checkRate_position h).2, by simp only [applyWith, setar, h, completeSetter_some]⟩
    | none => exact .inr (.inr ⟨rfl, _, _, by simp only [applyWith, setar, h, completeSetter_none]; rfl⟩)
  | setdr rate ksr ksn =>
    cases h : checkRate rate ksr ksn with
    | some k => exact .inl ⟨k, (checkRate_position h).1, (checkRate_position h).2, by simp only [applyWith, setdr, h, completeSetter_some]⟩
    | none => exact .inr (.inr ⟨rfl, _, _, by simp only [applyWith, setdr, h, completeSetter_none]; rfl⟩)
  | setsl sl =>
    cases h : checkSetsl sl with
    | some k => exact .inl ⟨k, (checkSetsl_position h).1, (checkSetsl_position h).2, by simp only [applyWith, setsl, h, completeSetter_some]⟩
    | none => exact .inr (.inr ⟨rfl, _, _, by simp only [applyWith, setsl, h, completeSetter_none]; rfl⟩)
  | setsr rate ksr ksn =>
    cases h : checkRate rate ksr ksn with
    | some k => exact .inl ⟨k, (checkRate_position h).1, (checkRate_position h).2, by simp only [applyWith, setsr, h, completeSetter_some]⟩
    | none => exact .inr (.inr ⟨rfl, _, _, by simp only [applyWith, setsr, h, completeSetter_none]; rfl⟩)
  | setrr rate ksr ksn =>
    cases h : checkRate rate ksr ksn with
    | some k => exact .inl ⟨k, (checkRate_position h).1, (checkRate_position h).2, by simp only [applyWith, setrr, h, completeSetter_some]⟩
    | none => exact .inr (.inr ⟨rfl, _, _, by simp only [applyWith, setrr, h, completeSetter_none]; rfl⟩)
  | pgkeyon => exact .inr (.inl ⟨rfl, _, _, rfl⟩)
  | getphase => exact .inr (.inl ⟨rfl, _, _, rfl⟩)
  | egkeyon => exact .inr (.inr ⟨rfl, _, _, rfl⟩)
  | egkeyoff => exact .inr (.inr ⟨rfl, _, _, rfl⟩)
  | getenv => exact .inr (.inr ⟨rfl, _, _, rfl⟩)

/-- No command touches what the driver is to present (R61). -/
@[simp] theorem applyWith_inputs (c : Cfg) (i : Instr) (s : State) : (applyWith c i s).inputs = s.inputs := by
  rcases applyWith_cases c i s with ⟨_, _, _, e⟩ | ⟨_, _, _, e⟩ | ⟨_, _, _, e⟩ <;> rw [e] <;> rfl

/-- A phase generator command writes no envelope register (R20). -/
theorem applyWith_eg_of_phase {c : Cfg} {i : Instr} (h : isPhaseCommand i = true) (s : State) :
    (applyWith c i s).eg = s.eg := by
  rcases applyWith_cases c i s with ⟨_, _, _, e⟩ | ⟨_, _, _, e⟩ | ⟨h', _, _, _⟩
  · rw [e]; rfl
  · rw [e]; rfl
  · rw [h] at h'; cases h'

/-- An envelope generator command writes no phase register (R20). -/
theorem applyWith_pg_of_envelope {c : Cfg} {i : Instr} (h : isPhaseCommand i = false) (s : State) :
    (applyWith c i s).pg = s.pg := by
  rcases applyWith_cases c i s with ⟨_, _, _, e⟩ | ⟨h', _, _, _⟩ | ⟨_, _, _, e⟩
  · rw [e]; rfl
  · rw [h] at h'; cases h'
  · rw [e]; rfl

/-- The three kinds of step. -/
theorem step_nil {s : State} (h : s.inputs = []) : step s = .next (awaitCommand s) := by rw [step, h]

theorem step_reset {s : State} {rest : List Input} (h : s.inputs = .reset :: rest) :
    step s = .next (assertReset Config.cfg { s with inputs := rest }) := by rw [step, h]

theorem step_command {s : State} {w : CommandWord} {rest : List Input} {i : Instr} (h : s.inputs = .command w :: rest)
    (hw : decode w = .ok i) : step s = .next (applyWith Config.cfg i { s with inputs := rest }) := by
  rw [step, h]; simp only [hw, exec_eq]

theorem step_illegal {s : State} {w : CommandWord} {rest : List Input} {e : DecodeError}
    (h : s.inputs = .command w :: rest) (hw : decode w = .error e) : step s = .refused (.illegalWord e) := by
  rw [step, h]; simp only [hw]

/-- Everything a step that answers next can have done. -/
theorem step_cases {s t : State} (h : step s = .next t) :
    (s.inputs = [] ∧ t = awaitCommand s) ∨
      (∃ rest, s.inputs = .reset :: rest ∧ t = assertReset Config.cfg { s with inputs := rest }) ∨
      ∃ w rest i, s.inputs = .command w :: rest ∧ decode w = .ok i ∧
        t = applyWith Config.cfg i { s with inputs := rest } := by
  match hin : s.inputs with
  | [] => rw [step_nil hin] at h; cases h; exact .inl ⟨rfl, rfl⟩
  | .reset :: rest => rw [step_reset hin] at h; cases h; exact .inr (.inl ⟨rest, rfl, rfl⟩)
  | .command w :: rest =>
    match hw : decode w with
    | .ok i => rw [step_command hin hw] at h; cases h; exact .inr (.inr ⟨w, rest, i, rfl, hw, rfl⟩)
    | .error e => rw [step_illegal hin hw] at h; cases h

/-- A command's effect does not depend on what the driver is to present (R22, R61). -/
theorem applyWith_with_inputs (c : Cfg) (i : Instr) (s : State) (l : List Input) :
    applyWith c i { s with inputs := l } = { applyWith c i s with inputs := l } := by
  have setter : ∀ (o : Option (BitVec 3)) (w : State → State), w { s with inputs := l } = { w s with inputs := l } →
      completeSetter o w { s with inputs := l } = { completeSetter o w s with inputs := l } := by
    intro o w h
    cases o with
    | none => simp only [completeSetter_none, h]; rfl
    | some k => rfl
  cases i
  case setfreq | setatt | setar | setdr | setsl | setsr | setrr => exact setter _ _ rfl
  all_goals rfl

/-- A run of the host's takes one step at a time. -/
theorem run_next {n : Nat} {s t : State} (h : step s = .next t) :
    Host.Core.run Sys2Proof.core (n + 1) s = Host.Core.run Sys2Proof.core n t := by
  have generic : ∀ (M : Host.Core) (x y : M.State), M.step x = .next y → M.run (n + 1) x = M.run n y := by
    intro M x y hxy
    rw [Host.Core.run, hxy]
  exact generic Sys2Proof.core s t h

@[simp] theorem run_zero (s : State) : Host.Core.run Sys2Proof.core 0 s = .next s := rfl

end Sys2Proof.Machine
end

