-- ==== Sys2Proof/Laws/Encoding.lean ====
section
/-! SUPPORT. The word as a number: what packing the five fields gives and what reading a field gives (R71, R73). -/

namespace Sys2Proof

/-- Fields that fit do not overlap, so the word of R71 is their sum. -/
theorem packWord_toNat {op a b c d : Nat} (hop : op < 256) (ha : a < 65536) (hb : b < 65536) (hc : c < 65536)
    (hd : d < 256) : (packWord op a b c d).toNat = op * 2 ^ 56 + a * 2 ^ 40 + b * 2 ^ 24 + c * 2 ^ 8 + d := by
  have e1 : op <<< 56 ||| a <<< 40 = op <<< 56 + a <<< 40 := by
    rw [show op <<< 56 = (op <<< 16) <<< 40 by rw [← Nat.shiftLeft_add], ← Nat.shiftLeft_or_distrib,
      ← Nat.shiftLeft_add_eq_or_of_lt (b := a) (i := 16) (by omega), Nat.shiftLeft_eq, Nat.shiftLeft_eq, Nat.shiftLeft_eq,
      Nat.shiftLeft_eq, Nat.add_mul]
  have e2 : (op <<< 56 + a <<< 40) ||| b <<< 24 = op <<< 56 + a <<< 40 + b <<< 24 := by
    rw [show op <<< 56 + a <<< 40 = (op * 2 ^ 16 + a) <<< 40 by simp only [Nat.shiftLeft_eq]; ring,
      ← Nat.shiftLeft_add_eq_or_of_lt (b := b <<< 24) (i := 40) (by rw [Nat.shiftLeft_eq]; omega)]
  have e3 : (op <<< 56 + a <<< 40 + b <<< 24) ||| c <<< 8 = op <<< 56 + a <<< 40 + b <<< 24 + c <<< 8 := by
    rw [show op <<< 56 + a <<< 40 + b <<< 24 = (op * 2 ^ 32 + a * 2 ^ 16 + b) <<< 24 by
        simp only [Nat.shiftLeft_eq]; ring,
      ← Nat.shiftLeft_add_eq_or_of_lt (b := c <<< 8) (i := 24) (by rw [Nat.shiftLeft_eq]; omega)]
  have e4 : (op <<< 56 + a <<< 40 + b <<< 24 + c <<< 8) ||| d = op <<< 56 + a <<< 40 + b <<< 24 + c <<< 8 + d := by
    rw [show op <<< 56 + a <<< 40 + b <<< 24 + c <<< 8 = (op * 2 ^ 48 + a * 2 ^ 32 + b * 2 ^ 16 + c) <<< 8 by
        simp only [Nat.shiftLeft_eq]; ring,
      ← Nat.shiftLeft_add_eq_or_of_lt (b := d) (i := 8) (by omega)]
  rw [packWord, e1, e2, e3, e4, BitVec.toNat_ofNat]
  simp only [Nat.shiftLeft_eq]
  omega

theorem fieldOp_eq (w : CommandWord) : (fieldOp w).toNat = w.toNat / 2 ^ 56 := by
  have := w.isLt
  simp only [fieldOp, BitVec.extractLsb'_toNat, Nat.shiftRight_eq_div_pow]
  omega

theorem fieldA_eq (w : CommandWord) : fieldA w = w.toNat / 2 ^ 40 % 65536 := by
  simp only [fieldA, BitVec.extractLsb'_toNat, Nat.shiftRight_eq_div_pow]

theorem fieldB_eq (w : CommandWord) : fieldB w = w.toNat / 2 ^ 24 % 65536 := by
  simp only [fieldB, BitVec.extractLsb'_toNat, Nat.shiftRight_eq_div_pow]

theorem fieldC_eq (w : CommandWord) : fieldC w = w.toNat / 2 ^ 8 % 65536 := by
  simp only [fieldC, BitVec.extractLsb'_toNat, Nat.shiftRight_eq_div_pow]

theorem fieldD_eq (w : CommandWord) : fieldD w = w.toNat % 256 := by
  simp only [fieldD, BitVec.extractLsb'_toNat, Nat.shiftRight_zero]

/-- Two rows with one opcode are one row, so the map is unambiguous (R74). -/
theorem Op.ofCode_code (o : Op) : Op.ofCode o.code = some o := by cases o <;> decide

/-- The row found has the opcode looked for (R74). -/
theorem Op.ofCode_some {code : BitVec 8} {o : Op} (h : Op.ofCode code = some o) : o.code = code := by
  have := List.find?_some h
  exact eq_of_beq this

end Sys2Proof
end

