-- ==== Sys2Proof/Laws/PerInstr.lean ====
section
/-! SUPPORT. The family EncodedRow: the word of a well-formed command bears its row's opcode (R71, R74). -/

namespace Sys2Proof.Laws.EncodedRow

open Sys2Proof

/-- The opcode field of the encoded command is the opcode of its row. -/
def Statement (i : Instr) : Prop := i.wellFormed = true → fieldOp (encode i) = i.op.code

/-- The opcode field of a packed word is the opcode packed, when every field fits. -/
theorem of_fits (o : Op) {a b c d : Nat} (ha : a < 65536) (hb : b < 65536) (hc : c < 65536) (hd : d < 256) :
    fieldOp (packWord o.code.toNat a b c d) = o.code := by
  apply BitVec.eq_of_toNat_eq
  have hop := o.code.isLt
  rw [fieldOp_eq, packWord_toNat (by omega) ha hb hc hd]
  omega

theorem setfreq (fnum block multiple detuneIndex : Nat) : Statement (.setfreq fnum block multiple detuneIndex) := by
  intro h
  simp only [Instr.wellFormed, fitsWide, fitsNarrow, Bool.and_eq_true, decide_eq_true_eq] at h
  exact of_fits .setfreq (a := fnum) (b := block) (c := multiple) (d := detuneIndex) (by omega) (by omega) (by omega) (by omega)

theorem pgkeyon : Statement .pgkeyon := by
  intro _
  exact of_fits .pgkeyon (a := 0) (b := 0) (c := 0) (d := 0) (by omega) (by omega) (by omega) (by omega)

theorem getphase (vdepth vphase fbin : Nat) : Statement (.getphase vdepth vphase fbin) := by
  intro h
  simp only [Instr.wellFormed, fitsWide, Bool.and_eq_true, decide_eq_true_eq] at h
  exact of_fits .getphase (a := vdepth) (b := vphase) (c := fbin) (d := 0) (by omega) (by omega) (by omega) (by omega)

theorem setatt (fnum block ksl : Nat) : Statement (.setatt fnum block ksl) := by
  intro h
  simp only [Instr.wellFormed, fitsWide, Bool.and_eq_true, decide_eq_true_eq] at h
  exact of_fits .setatt (a := fnum) (b := block) (c := ksl) (d := 0) (by omega) (by omega) (by omega) (by omega)

theorem setar (rate ksr ksn : Nat) : Statement (.setar rate ksr ksn) := by
  intro h
  simp only [Instr.wellFormed, fitsWide, Bool.and_eq_true, decide_eq_true_eq] at h
  exact of_fits .setar (a := rate) (b := ksr) (c := ksn) (d := 0) (by omega) (by omega) (by omega) (by omega)

theorem setdr (rate ksr ksn : Nat) : Statement (.setdr rate ksr ksn) := by
  intro h
  simp only [Instr.wellFormed, fitsWide, Bool.and_eq_true, decide_eq_true_eq] at h
  exact of_fits .setdr (a := rate) (b := ksr) (c := ksn) (d := 0) (by omega) (by omega) (by omega) (by omega)

theorem setsl (sl : Nat) : Statement (.setsl sl) := by
  intro h
  simp only [Instr.wellFormed, fitsWide, decide_eq_true_eq] at h
  exact of_fits .setsl (a := sl) (b := 0) (c := 0) (d := 0) (by omega) (by omega) (by omega) (by omega)

theorem setsr (rate ksr ksn : Nat) : Statement (.setsr rate ksr ksn) := by
  intro h
  simp only [Instr.wellFormed, fitsWide, Bool.and_eq_true, decide_eq_true_eq] at h
  exact of_fits .setsr (a := rate) (b := ksr) (c := ksn) (d := 0) (by omega) (by omega) (by omega) (by omega)

theorem setrr (rate ksr ksn : Nat) : Statement (.setrr rate ksr ksn) := by
  intro h
  simp only [Instr.wellFormed, fitsWide, Bool.and_eq_true, decide_eq_true_eq] at h
  exact of_fits .setrr (a := rate) (b := ksr) (c := ksn) (d := 0) (by omega) (by omega) (by omega) (by omega)

theorem egkeyon : Statement .egkeyon := by
  intro _
  exact of_fits .egkeyon (a := 0) (b := 0) (c := 0) (d := 0) (by omega) (by omega) (by omega) (by omega)

theorem egkeyoff : Statement .egkeyoff := by
  intro _
  exact of_fits .egkeyoff (a := 0) (b := 0) (c := 0) (d := 0) (by omega) (by omega) (by omega) (by omega)

theorem getenv (amDepth amDam lfoIn : Nat) : Statement (.getenv amDepth amDam lfoIn) := by
  intro h
  simp only [Instr.wellFormed, fitsWide, Bool.and_eq_true, decide_eq_true_eq] at h
  exact of_fits .getenv (a := amDepth) (b := amDam) (c := lfoIn) (d := 0) (by omega) (by omega) (by omega) (by omega)

end Sys2Proof.Laws.EncodedRow
end

