-- ==== Sys2Proof/Machine/Acceptance.lean ====
section
/-! DEFINITION. What the interpretive constants FS_HZ and ATT_UNIT_DB relate (R107, R118) and the two acceptance
properties of a configuration (R115, R116). They are properties of `Cfg`, no part of its well-formedness (R119) and assumed
of no configuration here (log entry 26). -/

namespace Sys2Proof.Machine

open Sys2Proof

/-- `hz` is the frequency of `units` increment units per sample: `units * FS_HZ / 2^N` Hertz (R107, R118), stated without the
division. -/
def IsHertzOf (c : Cfg) (units hz : ℝ) : Prop := hz * 2 ^ c.phaseBits = units * c.fsHz.val

/-- `slope` is the level slope at actual rate r: `STEP[r] / 2^F * ATT_UNIT_DB * FS_HZ` decibels per second (R118). -/
def IsSlopeOf (c : Cfg) (r : Nat) (slope : ℝ) : Prop :=
  slope * 2 ^ c.envFracBits = c.step r * c.attUnitDb.val * c.fsHz.val

/-- The detune acceptance property: the measured delta in Hertz is within 0.01 of the reference `detuneHz[d][k] * m` (R115). -/
def DetuneAccepted (c : Cfg) (detuneHz : Nat → Nat → ℝ) : Prop :=
  ∀ m, 1 ≤ m → m ≤ 8 → ∀ d, 1 ≤ d → d ≤ 3 → ∀ fnum ≤ 1023, ∀ block ≤ 7, ∀ hz : ℝ,
    IsHertzOf c ((increment c fnum block m d : ℝ) - (increment c fnum block m 0 : ℝ)) hz →
      |hz - detuneHz d (keyScaleNumber fnum block) * m| ≤ 1 / 100

/-- The two reference rows of release slopes, in decibels per second (R116). -/
def referenceSlopes : Nat → List Nat
  | 0 => [17, 17, 17, 17, 17, 22, 22, 22, 22, 26, 26, 26, 26, 31, 31, 31]
  | _ => [17, 22, 22, 31, 31, 44, 44, 62, 62, 89, 89, 125, 125, 179, 179, 250]

/-- The release-slope acceptance property: with raw release rate 4, the slope at `r(ksr, k) = min(63, 16 + KSR_ADJ[ksr][k])`
rounds to entry k of the row of ksr (R116). -/
def ReleaseSlopesAccepted (c : Cfg) : Prop :=
  ∀ ksr ≤ 1, ∀ k ≤ 15, ∀ slope : ℝ,
    IsSlopeOf c (min 63 (16 + c.ksrAdj ksr k)) slope → (referenceSlopes ksr)[k]? = some (round slope).toNat

end Sys2Proof.Machine
end

