-- ==== Sys2Proof/Tests/Slice0.lean ====
section
/-! SUPPORT. The model's own tests: what `wellFormed` refuses, words written out from the spec's encoding, single commands under
CFG_EX with the results spec/95_test_vectors.md gives (section and row named), and for every statement with hypotheses a
witness that meets them. -/

namespace Sys2Proof.Tests

open Sys2Proof Sys2Proof.Machine

/-- CFG_EX of spec/95_test_vectors.md section 2: the spec's illustration, not hardware data. It defines neither FS_HZ nor
ATT_UNIT_DB (set to 1 here; no rule reads them). -/
def cfgEx : Cfg where
  phaseBits := 19
  fixedShift := 1
  dtRows := 4
  dtInc d k :=
    match d with
    | 1 => [0, 0, 0, 1, 1, 1, 1, 2, 2, 2, 3, 3, 4, 4, 5, 6].getD k 0
    | 2 => [0, 1, 1, 2, 2, 3, 3, 4, 5, 6, 7, 8, 9, 11, 13, 15].getD k 0
    | 3 => [1, 1, 2, 3, 3, 4, 5, 6, 8, 9, 11, 13, 16, 19, 22, 26].getD k 0
    | _ => 0
  mult2 m := [1, 2, 4, 6, 8, 10, 12, 14, 16, 18, 20, 20, 24, 24, 30, 30].getD m 0
  vibInc inc depth vphase := (inc + depth * (vphase % 8)) % 524288
  maxAtt := 511
  envFracBits := 12
  step r := if r = 0 then 0 else (4 + r % 4) <<< (r >>> 2)
  ksrAdj ksr k := if ksr = 0 then k >>> 2 else k
  slMap s := if s = 15 then 511 else 16 * s
  kslAttFn ksl block fnum := if ksl = 0 then 0 else (8 * block + fnum >>> 7) <<< (ksl - 1)
  kslFnumBits := 3
  amAtt amDepth amDam lfoIn := if amDepth = 0 then 0 else (lfoIn % 32) * (amDam % 4 + 1)
  dampTicks := 1
  fsHz := ⟨1, zero_lt_one⟩
  attUnitDb := ⟨1, zero_lt_one⟩

/-- CFG_EX is a well-formed configuration (R119). -/
theorem cfgEx_wf : cfgEx.Wf where
  phaseBits_pos := by decide
  dtRows_ge := by decide
  dtRows_le := by decide
  dtInc_zero _ _ := rfl
  mult2_zero := rfl
  mult2_eq := by decide
  vibInc_lt _ _ _ _ _ _ := Nat.mod_lt _ (by decide)
  vibInc_depth_zero inc h vphase _ := by
    show (inc + 0 * (vphase % 8)) % 524288 = inc
    rw [Nat.zero_mul, Nat.add_zero]
    exact Nat.mod_eq_of_lt h
  maxAtt_pos := by decide
  step_zero := rfl
  slMap_le := by decide
  slMap_top := rfl
  kslFnumBits_pos := by decide
  kslFnumBits_le := by decide
  kslAttFn_off _ _ _ _ := rfl
  kslAttFn_top ksl _ block _ f1 _ f2 _ h := by
    have h' : f1 >>> 7 = f2 >>> 7 := h
    show (if ksl = 0 then 0 else (8 * block + f1 >>> 7) <<< (ksl - 1)) = if ksl = 0 then 0 else (8 * block + f2 >>> 7) <<< (ksl - 1)
    rw [h']
  amAtt_off _ _ _ _ := rfl

/-- The reset state of CFG_EX. -/
def fresh : State := State.resetWith cfgEx

/-- It with other phase registers INC and ACC. -/
def withPhase (inc acc : Nat) : State := { fresh with pg := { fresh.pg with inc := inc, acc := acc } }

/-- It with another stage, level and DAMPCNT, all four rates `rate`, SL `sl` and KSLATT `kslAtt`. -/
def withEnv (stage : Stage) (level dampCnt : Nat) (rate : BitVec 6) (sl kslAtt : Nat) : State :=
  { fresh with eg := ⟨stage, level, dampCnt, rate, rate, rate, rate, sl, kslAtt⟩ }

/-- The response of a state and what STAGE, LEVEL and DAMPCNT hold. -/
def envView (s : State) : Option Response × Stage × Nat × Nat := (s.response, s.eg.stage, s.eg.level, s.eg.dampCnt)

/-! ## Well-formedness: one term for each field that can be too wide -/

theorem test_wellFormed_refuses_setfreq :
    [Instr.setfreq 65536 0 0 0, .setfreq 0 65536 0 0, .setfreq 0 0 65536 0, .setfreq 0 0 0 256].all
      (fun i => !i.wellFormed) = true := by decide

theorem test_wellFormed_refuses_three_operands :
    ([Instr.getphase, .setatt, .setar, .setdr, .setsr, .setrr, .getenv].all fun f =>
      !(f 65536 0 0).wellFormed && !(f 0 65536 0).wellFormed && !(f 0 0 65536).wellFormed) = true := by decide

theorem test_wellFormed_refuses_setsl : (Instr.setsl 65536).wellFormed = false := by decide

/-- The widest operands fit, and a command without operands always does. -/
theorem test_wellFormed_accepts_widest :
    [Instr.setfreq 65535 65535 65535 255, .getphase 65535 65535 65535, .setsl 65535, .pgkeyon, .egkeyon, .egkeyoff].all
      Instr.wellFormed = true := by decide

/-! ## Decoding: words written out from R71 and R74 by hand -/

/-- op 0x01, a = 0x03E8, b = 7, c = 8, d = 3 (R85, the last field added). -/
theorem test_decode_setfreq : decode 0x0103E80007000803 = .ok (.setfreq 1000 7 8 3) := by decide
/-- op 0x02 (R85). -/
theorem test_decode_pgkeyon : decode 0x0200000000000000 = .ok .pgkeyon := by decide
/-- op 0x03, a = 2, b = 5, c = 0x03E7 (R85). -/
theorem test_decode_getphase : decode 0x030002000503E700 = .ok (.getphase 2 5 999) := by decide
/-- op 0x10, a = 0x02BC, b = 4, c = 1 (R85). -/
theorem test_decode_setatt : decode 0x1002BC0004000100 = .ok (.setatt 700 4 1) := by decide
/-- op 0x11, a = 15, b = 1, c = 15 (R85). -/
theorem test_decode_setar : decode 0x11000F0001000F00 = .ok (.setar 15 1 15) := by decide
/-- op 0x12 (section 4, P3 step 2). -/
theorem test_decode_setdr : decode 0x1200090000000000 = .ok (.setdr 9 0 0) := by decide
/-- op 0x13, a = 2 (R85). -/
theorem test_decode_setsl : decode 0x1300020000000000 = .ok (.setsl 2) := by decide
/-- op 0x14, a = 3, b = 1, c = 2 by hand from R71. -/
theorem test_decode_setsr : decode 0x1400030001000200 = .ok (.setsr 3 1 2) := by decide
/-- op 0x15 (section 3.5). -/
theorem test_decode_setrr : decode 0x1500040001000700 = .ok (.setrr 4 1 7) := by decide
/-- op 0x16 (section 3.7). -/
theorem test_decode_egkeyon : decode 0x1600000000000000 = .ok .egkeyon := by decide
/-- op 0x17 (R85). -/
theorem test_decode_egkeyoff : decode 0x1700000000000000 = .ok .egkeyoff := by decide
/-- op 0x18, a = 1, b = 3, c = 31 (R85). -/
theorem test_decode_getenv : decode 0x1800010003001F00 = .ok (.getenv 1 3 31) := by decide

/-- The reserved opcodes of section 3.9. -/
theorem test_decode_reserved_opcodes :
    [0x0000000000000000, 0x0400000000000000, 0x1900000000000000, 0xFF00000000000000].map decode =
      [.error (.reservedOpcode 0x00), .error (.reservedOpcode 0x04), .error (.reservedOpcode 0x19),
        .error (.reservedOpcode 0xFF)] := by decide

/-- The words with a nonzero unused field of section 3.9. -/
theorem test_decode_unused_fields :
    [0x0200000000000001, 0x1600010000000000, 0x1300010000000100, 0x0300000000000001].map decode =
      [.error (.nonzeroUnusedField .pgkeyon), .error (.nonzeroUnusedField .egkeyon), .error (.nonzeroUnusedField .setsl),
        .error (.nonzeroUnusedField .getphase)] := by decide

/-- The legal words with operands out of range of section 3.9: they decode (R78). -/
theorem test_decode_out_of_range_operands :
    decode 0x1100100000000000 = .ok (.setar 16 0 0) ∧
      decode 0x01FFFFFFFFFFFFFF = .ok (.setfreq 65535 65535 65535 255) := by decide

/-- The encoder gives the words of R85. -/
theorem test_encode_worked_encodings :
    encode (.setfreq 1000 7 8 0) = 0x0103E80007000800 ∧ encode (.getphase 2 5 999) = 0x030002000503E700 ∧
      encode (.setsl 2) = 0x1300020000000000 ∧ encode .egkeyoff = 0x1700000000000000 := by decide

/-- A word as bytes, most significant first (R53), decodes; nine bytes do not (R79). -/
theorem test_decode_bytes :
    decodeBytes [0x13, 0x00, 0x02, 0, 0, 0, 0, 0] = .ok (.setsl 2) ∧
      decodeBytes [0x13, 0x00, 0x02, 0, 0, 0, 0, 0, 0] = .error (.wrongByteCount 9) := by decide

/-- The opcode table's numbering: bit 0 is the word's least significant bit. -/
theorem test_decode_table_word : decodeTableWord 64 0x1002BC0004000100 = some (.setatt 700 4 1) := by decide

/-! ## The text form -/

/-- R86: comments, blank lines, hexadecimal; R87: KEYON is PGKEYON then EGKEYON. -/
theorem test_assemble_program :
    assemble "; a note\n\nSETAR 15, 1, 0xF\nKEYON ; go\nTICK 2, 5, 999, 1, 3, 31" =
      .ok [0x11000F0001000F00, 0x0200000000000000, 0x1600000000000000, 0x030002000503E700, 0x1800010003001F00] := by
  decide

/-- R86: an operand that does not fit its field, R90: no other pseudo-command. -/
theorem test_assemble_rejects :
    assemble "SETSL 65536" = .error .operandTooWide ∧ assemble "SETFREQ 1, 1, 1, 256" = .error .operandTooWide ∧
      assemble "RESET" = .error .unknownMnemonic ∧ assemble "SETSL 1, 2" = .error .wrongOperandCount := by
  decide

/-! ## Single commands under CFG_EX -/

/-- Section 3.1: the widest detuned increment wraps; KSN from block and fnum. -/
theorem test_setfreq_wraps :
    (applyWith cfgEx (.setfreq 1023 7 15 3) (withPhase 5 7)).pg = ⟨1023, 7, 15, 3, 15, 458182, 7⟩ := by decide
/-- Section 3.1: half of an odd doubled increment rounds down; an operand out of range writes nothing. -/
theorem test_setfreq_halves_and_rejects :
    (applyWith cfgEx (.setfreq 700 4 0 2) fresh).pg.inc = 2803 ∧
      applyWith cfgEx (.setfreq 5 0 1 4) (withPhase 5 7) = { withPhase 5 7 with response := some ⟨.invalidParameter, 4, 0⟩ } := by
  decide
/-- Section 3.2. -/
theorem test_pgkeyon :
    applyWith cfgEx .pgkeyon (withPhase 512000 475146) = { withPhase 512000 0 with response := some ⟨.ok, 0, 0⟩ } := by decide
/-- Section 3.3: wrap past 0, and vibrato. -/
theorem test_getphase_wraps :
    applyWith cfgEx (.getphase 0 0 777) (withPhase 10 524280) =
      { withPhase 10 2 with response := some ⟨.ok, 0, 524280⟩ } := by decide
theorem test_getphase_vibrato :
    applyWith cfgEx (.getphase 3 13 777) (withPhase 50 100) =
      { withPhase 50 165 with response := some ⟨.ok, 0, 100⟩ } := by decide
/-- Section 3.4. -/
theorem test_setatt :
    (applyWith cfgEx (.setatt 700 4 3) fresh).eg.kslAtt = 148 ∧
      (applyWith cfgEx (.setatt 0 0 4) fresh).response = some ⟨.invalidParameter, 3, 0⟩ := by decide
/-- Section 3.5, each rate setter in its own register alone: below the clamp, clamped, raw 0. -/
theorem test_setar :
    (applyWith cfgEx (.setar 4 1 7) fresh).eg = { fresh.eg with ar := 23 } ∧
      (applyWith cfgEx (.setar 16 2 16) fresh).response = some ⟨.invalidParameter, 1, 0⟩ := by decide
theorem test_setdr : (applyWith cfgEx (.setdr 15 1 4) fresh).eg = { fresh.eg with dr := 63 } := by decide
theorem test_setsr :
    (applyWith cfgEx (.setsr 0 1 15) (withEnv .sustain 1 0 42 2 3)).eg = { (withEnv .sustain 1 0 42 2 3).eg with sr := 0 } := by
  decide
theorem test_setrr :
    (applyWith cfgEx (.setrr 4 0 7) fresh).eg = { fresh.eg with rr := 17 } ∧
      (applyWith cfgEx (.setrr 3 0 16) fresh).response = some ⟨.invalidParameter, 3, 0⟩ := by decide
/-- Section 3.6. -/
theorem test_setsl :
    (applyWith cfgEx (.setsl 15) fresh).eg = { fresh.eg with sl := 511 } ∧
      (applyWith cfgEx (.setsl 14) fresh).eg = { fresh.eg with sl := 224 } := by decide
/-- Section 3.7: a retrigger damps; silence is a test on LEVEL, not on STAGE. -/
theorem test_egkeyon :
    envView (applyWith cfgEx .egkeyon (withEnv .attack 1699840 0 60 0 0)) = (some ⟨.ok, 0, 0⟩, .damp, 2093056, 1) ∧
      envView (applyWith cfgEx .egkeyon (withEnv .release 2093056 0 60 0 0)) = (some ⟨.ok, 0, 0⟩, .attack, 2093056, 0) := by
  decide
/-- Section 3.7: release from Damp; Idle stays. -/
theorem test_egkeyoff :
    envView (applyWith cfgEx .egkeyoff (withEnv .damp 2093056 1 60 0 0)) = (some ⟨.ok, 0, 0⟩, .release, 2093056, 0) ∧
      envView (applyWith cfgEx .egkeyoff fresh) = (some ⟨.ok, 0, 0⟩, .idle, 2093056, 0) := by decide
/-- Section 3.7: clamps of Attack and Decay, Damp's end, a level past SL. -/
theorem test_getenv_early_stages :
    envView (applyWith cfgEx (.getenv 0 0 0) (withEnv .attack 4 0 1 0 0)) = (some ⟨.ok, 0, 0⟩, .decay, 0, 0) ∧
      envView (applyWith cfgEx (.getenv 0 0 0) (withEnv .damp 2093056 1 60 0 0)) = (some ⟨.ok, 0, 511⟩, .attack, 2093056, 0) ∧
      envView (applyWith cfgEx (.getenv 0 0 0) (withEnv .decay 129000 0 40 32 0)) = (some ⟨.ok, 0, 32⟩, .sustain, 131072, 0) ∧
      envView (applyWith cfgEx (.getenv 0 0 0) (withEnv .decay 300000 0 40 32 0)) = (some ⟨.ok, 0, 73⟩, .sustain, 300000, 0) := by
  decide
/-- Section 3.7: Sustain to Idle, Release's fraction, the three terms of ENV_OUT and its clamp. -/
theorem test_getenv_late_stages :
    envView (applyWith cfgEx (.getenv 0 0 0) (withEnv .sustain 2093051 0 1 0 0)) = (some ⟨.ok, 0, 511⟩, .idle, 2093056, 0) ∧
      envView (applyWith cfgEx (.getenv 0 0 0) (withEnv .release 4095 0 1 0 0)) = (some ⟨.ok, 0, 1⟩, .release, 4100, 0) ∧
      envView (applyWith cfgEx (.getenv 1 2 5) (withEnv .release 1638400 0 0 0 20)) = (some ⟨.ok, 0, 435⟩, .release, 1638400, 0) ∧
      envView (applyWith cfgEx (.getenv 1 0 5) (withEnv .release 2048000 0 0 0 20)) = (some ⟨.ok, 0, 511⟩, .release, 2048000, 0) := by
  decide

/-! ## Steps of the machine -/

/-- The word placed next runs as the first thing after reset (R135). -/
theorem test_step_runs_fetched_word :
    step (State.reset.withFetchWord 64 0x0200000000000000) = .next { State.reset with response := some ⟨.ok, 0, 0⟩ } := rfl

/-- An illegal word is refused (R77). -/
theorem test_step_refuses_illegal_word :
    step (State.reset.withFetchWord 64 0x0400000000000000) = .refused (.illegalWord (.reservedOpcode 0x04)) := rfl

/-- RESET (R240). -/
theorem test_step_reset :
    step { State.reset with pg := ⟨1, 2, 3, 1, 4, 5, 6⟩, inputs := [.reset] } = .next State.reset := rfl

/-! ## Witnesses: a state and operands that meet all the hypotheses of a statement, clause by clause

`live` is a state of this machine, under its opaque configuration, in the middle of a note. -/

/-- Attack at full loudness, with INC and ACC at 0. -/
def live : State := { State.reset with eg := { State.reset.eg with stage := .attack, level := 0 } }

theorem live_not_silent : live.eg.level ≠ Config.cfg.maxAtt * 2 ^ Config.cfg.envFracBits :=
  (Nat.ne_of_lt (Config.cfg_wf.lmax_pos))

theorem increment_zero (c : Cfg) (h : c.Wf) : increment c 0 0 0 0 = 0 := by
  unfold increment doubledIncrement baseIncrement
  rw [h.dtInc_zero _ (by decide)]
  simp

/-- `live` meets every invariant, whatever it returned and whatever is presented to it. -/
theorem live_inv (l : List Input) : Inv Config.cfg { live with inputs := l } where
  acc_lt := Cfg.pmod_pos _
  inc_lt := Cfg.pmod_pos _
  level_le := Nat.zero_le _
  idle_silent h := by cases h
  damp_silent h := by cases h
  damp_counts h := by cases h
  damp_only _ := rfl
  sl_le := Config.cfg_wf.slMap_le 0 (by decide)
  dt_lt := Nat.lt_of_lt_of_le (Nat.succ_pos 3) Config.cfg_wf.dtRows_ge
  ksn_eq := by
    show (0 : BitVec 4).toNat = 2 * (0 : BitVec 3).toNat + (0 : BitVec 10).toNat / 512
    decide
  inc_eq := (increment_zero _ Config.cfg_wf).symm
  kslAtt_mem := ⟨0, by decide, 0, by decide, 0, by decide, rfl⟩
  response_data r h := by cases h
  response_ok r h := by cases h
  response_invalid r h := by cases h

theorem witness_SetfreqWritesFrequencyRegisters :
    ∃ fnum block multiple d : Nat, fnum = 1023 ∧ block = 7 ∧ multiple = 15 ∧
      fnum ≤ 1023 ∧ block ≤ 7 ∧ multiple ≤ 15 ∧ d < Config.cfg.dtRows ∧ 3 ≤ d :=
  ⟨1023, 7, 15, Config.cfg.dtRows - 1, rfl, rfl, rfl, by decide, by decide, by decide, by
    have := Config.cfg_wf.dtRows_ge; omega, by have := Config.cfg_wf.dtRows_ge; omega⟩

/-- One operand just past its range for each of the four positions. -/
theorem witness_SetfreqRejectsFirstOffendingOperand :
    (1023 < 1024 ∧ (1 : BitVec 3) = 1) ∧ (1023 ≤ 1023 ∧ 7 < 8 ∧ (2 : BitVec 3) = 2) ∧
      (1023 ≤ 1023 ∧ 7 ≤ 7 ∧ 15 < 16 ∧ (3 : BitVec 3) = 3) ∧
      ∃ d, 1023 ≤ 1023 ∧ 7 ≤ 7 ∧ 15 ≤ 15 ∧ Config.cfg.dtRows ≤ d ∧ (4 : BitVec 3) = 4 :=
  ⟨by decide, by decide, by decide, Config.cfg.dtRows, by decide, by decide, by decide, Nat.le_refl _, rfl⟩

/-- The legal operands of its first clause, and an envelope command for its second. -/
theorem witness_KeyScaleNumberComesFromPitch :
    (∃ d : Nat, 1023 ≤ 1023 ∧ 7 ≤ 7 ∧ 15 ≤ 15 ∧ d < Config.cfg.dtRows) ∧ isPhaseCommand (.setar 15 1 15) = false :=
  ⟨⟨0, by decide, by decide, by decide, Nat.lt_of_lt_of_le (Nat.succ_pos 3) Config.cfg_wf.dtRows_ge⟩, rfl⟩

theorem witness_GetphaseWithoutVibratoAddsIncrement :
    ∃ (vphase : Nat) (s : State), s.pg.inc < 2 ^ Config.cfg.phaseBits ∧ s.pg.inc + 1 = 2 ^ Config.cfg.phaseBits ∧
      vphase ≤ 65535 ∧ vphase = 65535 :=
  ⟨65535, { live with pg := { live.pg with inc := 2 ^ Config.cfg.phaseBits - 1 } },
    Nat.sub_lt (Nat.two_pow_pos _) (by decide), Nat.sub_add_cancel (Nat.two_pow_pos _), by decide, rfl⟩

theorem witness_PhaseAfterSamplesIsLinear :
    cfgEx.Wf ∧ (withPhase 524287 524287).pg.acc < 2 ^ cfgEx.phaseBits ∧ (withPhase 524287 524287).pg.inc < 2 ^ cfgEx.phaseBits ∧
      ∀ p ∈ [((65535 : Nat), (777 : Nat)), (0, 0)], p.1 ≤ 65535 :=
  ⟨cfgEx_wf, by decide, by decide, by decide⟩

/-- fnum, block, d and multiple at the top of their ranges, with the products still below 2^N. -/
theorem witness_DetuneIsScaledByMultiple :
    cfgEx.Wf ∧ 1023 ≤ 1023 ∧ 7 ≤ 7 ∧ 3 < cfgEx.dtRows ∧
      (let base : Nat := 1023 * 2 ^ 7 / 2 ^ cfgEx.fixedShift
       let dt : Int := cfgEx.dtInc 3 (2 * 7 + 1023 / 512)
       15 ≤ 15 ∧ 1 ≤ 8 ∧ 8 ≤ 8 ∧ 0 ≤ (base : Int) + dt ∧ ((base : Int) + dt) * (8 : Nat) < 2 ^ cfgEx.phaseBits ∧
         base * 8 < 2 ^ cfgEx.phaseBits ∧ base < 2 ^ cfgEx.phaseBits) :=
  ⟨cfgEx_wf, by decide, by decide, by decide, by decide⟩

theorem witness_SetattStoresStaticAttenuation :
    ∃ fnum block ksl : Nat, fnum ≤ 1023 ∧ block ≤ 7 ∧ ksl ≤ 3 ∧ fnum = 1023 ∧ block = 7 ∧ ksl = 3 :=
  ⟨1023, 7, 3, by decide⟩

/-- Two different pitches with the same top bits. -/
theorem witness_SetattReadsOnlyTopBitsOfFnum :
    cfgEx.Wf ∧ 896 ≤ 1023 ∧ 1023 ≤ 1023 ∧ 7 ≤ 7 ∧ 3 ≤ 3 ∧ levelMustFollow cfgEx 896 7 1023 7 = false :=
  ⟨cfgEx_wf, by decide⟩

theorem witness_RateSettersStoreActualRate :
    ∃ rate ksr ksn : Nat, rate ≤ 15 ∧ ksr ≤ 1 ∧ ksn ≤ 15 ∧ rate = 15 ∧ ksr = 1 ∧ ksn = 15 := ⟨15, 1, 15, by decide⟩

theorem witness_SetslStoresMappedLevel : ∃ sl : Nat, sl ≤ 15 ∧ sl = 15 := ⟨15, by decide⟩

/-- One operand just past its range for each position of each kind of setter. -/
theorem witness_EnvelopeSettersRejectFirstOffendingOperand :
    (1023 < 1024 ∧ (1 : BitVec 3) = 1) ∧ (1023 ≤ 1023 ∧ 7 < 8 ∧ (2 : BitVec 3) = 2) ∧
      (1023 ≤ 1023 ∧ 7 ≤ 7 ∧ 3 < 4 ∧ (3 : BitVec 3) = 3) ∧
      (15 < 16 ∧ (1 : BitVec 3) = 1) ∧ (15 ≤ 15 ∧ 1 < 2 ∧ (2 : BitVec 3) = 2) ∧
      (15 ≤ 15 ∧ 1 ≤ 1 ∧ 15 < 16 ∧ (3 : BitVec 3) = 3) ∧ 15 < 16 := by decide

theorem witness_SettersKeepAccumulatedState :
    ∀ i ∈ [Instr.setfreq 1023 7 15 0, .setatt 1024 0 0, .setar 15 1 15, .setdr 16 0 0, .setsl 15, .setsr 0 0 0, .setrr 1 0 0],
      i.op ∈ [Op.setfreq, .setatt, .setar, .setdr, .setsl, .setsr, .setrr] := by decide

theorem witness_EgkeyonForcesSilence :
    (∃ s : State, s.eg.level = Config.cfg.maxAtt * 2 ^ Config.cfg.envFracBits) ∧
      ∃ s : State, s.eg.level ≠ Config.cfg.maxAtt * 2 ^ Config.cfg.envFracBits :=
  ⟨⟨State.reset, rfl⟩, ⟨live, live_not_silent⟩⟩

/-- With two damp ticks and with none. -/
theorem witness_DampLastsDampTicksSamples :
    (let c := { cfgEx with dampTicks := 2 }
     (withEnv .attack 1 0 0 0 0).eg.level ≠ c.maxAtt * 2 ^ c.envFracBits ∧
       [((0 : Nat), (0 : Nat), (0 : Nat)), (1, 2, 3)].length ≤ c.dampTicks) ∧
    (let c := { cfgEx with dampTicks := 0 }
     (withEnv .attack 1 0 0 0 0).eg.level ≠ c.maxAtt * 2 ^ c.envFracBits ∧
       ([] : List (Nat × Nat × Nat)).length ≤ c.dampTicks) := by decide

theorem witness_SecondKeyOnSkipsDamp : ∃ s : State, s.eg.level ≠ Config.cfg.maxAtt * 2 ^ Config.cfg.envFracBits :=
  ⟨live, live_not_silent⟩

theorem witness_EgkeyoffReleasesUnlessIdle :
    (∃ s : State, s.eg.stage = .idle) ∧ ∃ s : State, s.eg.stage ≠ .idle := ⟨⟨State.reset, rfl⟩, ⟨live, by decide⟩⟩

theorem witness_KeyOffReleasesFromHeldLevel :
    ∀ st ∈ [Stage.attack, .decay, .sustain],
      (withEnv st 5 0 1 2 3).eg.stage = .attack ∨ (withEnv st 5 0 1 2 3).eg.stage = .decay ∨
        (withEnv st 5 0 1 2 3).eg.stage = .sustain := by decide

theorem witness_GetenvInIdleHoldsSilence :
    State.reset.eg.stage = .idle ∧ State.reset.eg.level = Config.cfg.maxAtt * 2 ^ Config.cfg.envFracBits := ⟨rfl, rfl⟩

theorem witness_GetenvInDampCountsDown :
    ∀ n ∈ [1, 2], (withEnv .damp 2093056 n 0 0 0).eg.stage = .damp ∧ 1 ≤ (withEnv .damp 2093056 n 0 0 0).eg.dampCnt := by
  decide

theorem witness_GetenvInAttackLowersLevel :
    ∃ (s : State) (level' : Nat), s.eg.stage = .attack ∧
      (level' : Int) = max 0 ((s.eg.level : Int) - Config.cfg.step s.eg.ar.toNat) :=
  ⟨live, 0, rfl, rfl⟩

theorem witness_GetenvInDecayApproachesSustainLevel : (withEnv .decay 0 0 63 32 0).eg.stage = .decay := rfl

theorem witness_GetenvInSustainRaisesLevel : (withEnv .sustain 0 0 63 32 0).eg.stage = .sustain := rfl

theorem witness_GetenvInReleaseRaisesLevel : (withEnv .release 0 0 63 32 0).eg.stage = .release := rfl

/-- A change of stage along each row of the table: key-on with and without damp, key-off, and each stage's end. -/
theorem witness_StageChangesOnlyAlongTable :
    [(Instr.egkeyon, fresh, Stage.attack), (.egkeyon, withEnv .attack 1 0 0 0 0, .damp), (.egkeyoff, withEnv .damp 2093056 1 0 0 0, .release),
      (.getenv 0 0 0, withEnv .damp 2093056 1 0 0 0, .attack), (.getenv 0 0 0, withEnv .attack 5 0 1 0 0, .decay),
      (.getenv 0 0 0, withEnv .decay 0 0 0 0 0, .sustain), (.getenv 0 0 0, withEnv .sustain 2093056 0 0 0 0, .idle),
      (.getenv 0 0 0, withEnv .release 2093051 0 1 0 0, .idle)].all (fun x =>
        decide (x.2.1.eg.level ≤ cfgEx.maxAtt * 2 ^ cfgEx.envFracBits) &&
          decide ((applyWith cfgEx x.1 x.2.1).eg.stage = x.2.2) && decide (x.2.1.eg.stage ≠ x.2.2)) = true := by decide

theorem witness_LevelIsMonotoneWithinStage :
    (withEnv .attack 2093056 0 1 0 0).eg.level ≤ cfgEx.maxAtt * 2 ^ cfgEx.envFracBits ∧
      (withEnv .attack 2093056 0 1 0 0).eg.stage = .attack ∧ (withEnv .release 2093056 0 1 0 0).eg.stage ≠ .attack ∧
      (Instr.getenv 0 0 0).op = .getenv ∧ Instr.egkeyon.op = .egkeyon ∧ (Instr.setsl 0).op ≠ .getenv ∧ (Instr.setsl 0).op ≠ .egkeyon := by
  decide

/-- Level 11 at step 5: the third sample is the last; both clauses. -/
theorem witness_AttackReachesFullLoudness :
    (withEnv .attack 11 0 1 0 0).eg.stage = .attack ∧ 0 < cfgEx.step (withEnv .attack 11 0 1 0 0).eg.ar.toNat ∧
      (let p := cfgEx.step (withEnv .attack 11 0 1 0 0).eg.ar.toNat
       let last := max 1 (((withEnv .attack 11 0 1 0 0).eg.level + p - 1) / p)
       (List.replicate 2 ((0 : Nat), (0 : Nat), (0 : Nat))).length < last ∧
         (List.replicate 3 ((0 : Nat), (0 : Nat), (0 : Nat))).length = last) := by decide

/-- Eleven below LMAX at step 5: the third sample is the last; both clauses. -/
theorem witness_ReleaseReachesIdle :
    (withEnv .release 2093045 0 1 0 0).eg.stage = .release ∧ 0 < cfgEx.step (withEnv .release 2093045 0 1 0 0).eg.rr.toNat ∧
      (withEnv .release 2093045 0 1 0 0).eg.level ≤ cfgEx.maxAtt * 2 ^ cfgEx.envFracBits ∧
      (let p := cfgEx.step (withEnv .release 2093045 0 1 0 0).eg.rr.toNat
       let last := max 1 ((cfgEx.maxAtt * 2 ^ cfgEx.envFracBits - (withEnv .release 2093045 0 1 0 0).eg.level + p - 1) / p)
       (List.replicate 2 ((0 : Nat), (0 : Nat), (0 : Nat))).length < last ∧
         last ≤ (List.replicate 4 ((0 : Nat), (0 : Nat), (0 : Nat))).length) := by decide

/-- Each of the four stages, at the last level before its end. -/
theorem witness_ZeroRateHoldsForEver :
    cfgEx.Wf ∧ ∀ s ∈ [withEnv .attack 1 0 0 0 0, withEnv .decay 131071 0 0 32 0, withEnv .sustain 2093055 0 0 0 0,
        withEnv .release 2093055 0 0 0 0],
      s.eg.stage = .attack ∧ s.eg.ar = 0 ∧ 0 < s.eg.level ∨
      s.eg.stage = .decay ∧ s.eg.dr = 0 ∧ s.eg.level < s.eg.sl * 2 ^ cfgEx.envFracBits ∨
      s.eg.stage = .sustain ∧ s.eg.sr = 0 ∧ s.eg.level < cfgEx.maxAtt * 2 ^ cfgEx.envFracBits ∨
      s.eg.stage = .release ∧ s.eg.rr = 0 ∧ s.eg.level < cfgEx.maxAtt * 2 ^ cfgEx.envFracBits :=
  ⟨cfgEx_wf, by decide⟩

/-- The five that cannot fail, and a setter that does. -/
theorem witness_OnlySettersRaiseAndThenNothingChanges :
    (∀ i ∈ [Instr.pgkeyon, .egkeyon, .egkeyoff, .getphase 65535 0 0, .getenv 65535 0 0],
      i.op ∈ [Op.pgkeyon, .egkeyon, .egkeyoff, .getphase, .getenv]) ∧
    ∃ (i : Instr) (s t : State) (r : Response), exec i s = .next t ∧ t.response = some r ∧ r.status = .invalidParameter :=
  ⟨by decide, .setsl 16, live, _, _, rfl, rfl, rfl⟩

theorem witness_IdleExecutesEveryCommand :
    State.reset.eg.stage = .idle ∧ State.reset.eg.level = Config.cfg.maxAtt * 2 ^ Config.cfg.envFracBits := ⟨rfl, rfl⟩

theorem witness_CommandsWriteOnlyTheirRegisters : Reg.acc ∉ writes (Instr.setfreq 1 2 3 0).op := by decide

/-- Two different states that agree on the registers EGKEYOFF reads. -/
theorem witness_CommandsReadOnlyTheirRegisters :
    ∃ s t : State, s ≠ t ∧ Inv Config.cfg s ∧ Inv Config.cfg t ∧
      (∀ r ∈ reads Instr.egkeyoff.op, r.read s = r.read t) ∧ legalOperands Config.cfg .egkeyoff = true ∧
      Reg.dampCnt ∈ writes Instr.egkeyoff.op :=
  ⟨{ live with inputs := [] }, { live with inputs := [.reset] }, fun h => (by cases congrArg State.inputs h), live_inv _, live_inv _,
    fun r _ => (by cases r <;> rfl), rfl, by decide⟩

theorem witness_GeneratorsAreIndependent :
    (∃ s t : State, s ≠ t ∧ s.pg = t.pg) ∧ ∃ s t : State, s ≠ t ∧ s.eg = t.eg :=
  ⟨⟨fresh, withEnv .attack 0 0 0 0 0, by decide, rfl⟩, ⟨fresh, withPhase 1 2, by decide, rfl⟩⟩

theorem witness_SettersAreIdempotent :
    ∀ i ∈ [Instr.setfreq 0 0 0 0, .setatt 0 0 0, .setar 0 0 0, .setdr 0 0 0, .setsl 0, .setsr 0 0 0, .setrr 0 0 0, .pgkeyon,
        .egkeyoff],
      i.op ∈ [Op.setfreq, .setatt, .setar, .setdr, .setsl, .setsr, .setrr, .pgkeyon, .egkeyoff] ∧
        ∃ t, exec i live = .next t := by
  intro i hi
  refine ⟨?_, _, exec_eq i live⟩
  revert i
  decide

theorem witness_DecodeOfEncode : (Instr.setfreq 65535 65535 65535 255).wellFormed = true := by decide

theorem witness_EncodeOfDecode : ∃ (w : CommandWord) (i : Instr), decode w = .ok i :=
  ⟨0x01FFFFFFFFFFFFFF, .setfreq 65535 65535 65535 255, by decide⟩

theorem witness_StoredBytesDecodeAsWord : ([] : List Byte).length ≠ 8 ∧ (List.replicate 9 (0 : Byte)).length ≠ 8 := by decide

theorem witness_AssembledWordsAreLegal : ∃ ws, assemble "KEYON" = .ok ws ∧ ws ≠ [] := by
  refine ⟨[0x0200000000000000, 0x1600000000000000], by decide, by decide⟩

theorem witness_StepRunsDecodedCommand :
    ∃ (s : State) (w : CommandWord) (rest : List Input) (i : Instr), s.inputs = .command w :: rest ∧ decode w = .ok i :=
  ⟨{ live with inputs := [.command 0x1300020000000000, .reset] }, _, _, .setsl 2, rfl, by decide⟩

/-- A state whose step is refused, and one whose step is not. -/
theorem witness_StepStopsOnlyOnIllegalWord :
    (∃ s : State, ∀ t, step s ≠ .next t) ∧ ∃ s t : State, step s = .next t :=
  ⟨⟨{ live with inputs := [.command 0x0400000000000000] }, fun t h => by
      rw [step_illegal (e := .reservedOpcode 0x04) rfl (by decide)] at h
      cases h⟩,
    ⟨live, _, step_nil rfl⟩⟩

theorem witness_StepWithoutCommand :
    (∃ s : State, s.inputs = []) ∧ ∃ (s : State) (rest : List Input), s.inputs = .reset :: rest :=
  ⟨⟨live, rfl⟩, ⟨{ live with inputs := [.reset, .reset] }, [.reset], rfl⟩⟩

theorem witness_RunIsCommandSequence :
    ∃ (is : List Instr) (s : State) (rest : List Input), is.length = 2 ∧ (∀ i ∈ is, i.wellFormed = true) ∧
      s.inputs = is.map (fun i => Input.command (encode i)) ++ rest :=
  ⟨[.setsl 65535, .egkeyon], { live with inputs := _ }, [.reset], rfl, by decide, rfl⟩

theorem witness_LegalInputsNeverStop :
    ∃ s : State, Inv Config.cfg s ∧ LegalInputs s ∧ s.inputs = [.command 0x1800000000000000, .reset] := by
  refine ⟨{ live with inputs := [.command 0x1800000000000000, .reset] }, live_inv _, ?_, rfl⟩
  intro w hw
  simp only [List.mem_cons, Input.command.injEq, List.not_mem_nil, or_false, reduceCtorEq] at hw
  subst hw
  exact ⟨.getenv 0 0 0, by decide⟩

theorem witness_ZeroSettersGiveResetRegisters : ∃ c : Cfg, c.Wf := ⟨cfgEx, cfgEx_wf⟩

theorem witness_OutputsOfResetState : ∃ a b : Nat, a ≤ 65535 ∧ b ≤ 65535 ∧ a = 0 ∧ b = 65535 := ⟨0, 65535, by decide⟩

theorem witness_InvHoldsAtReset : ∃ c : Cfg, c.Wf := ⟨cfgEx, cfgEx_wf⟩

/-- Each of the three kinds of step, from a state that meets the invariants. -/
theorem witness_StepKeepsInv :
    ∀ l ∈ [[], [Input.reset], [Input.command 0x1800000000000000]], ∃ s t : State, s.inputs = l ∧ Inv Config.cfg s ∧ step s = .next t := by
  intro l hl
  simp only [List.mem_cons, List.not_mem_nil, or_false] at hl
  rcases hl with rfl | rfl | rfl
  · exact ⟨{ live with inputs := [] }, _, rfl, live_inv _, step_nil rfl⟩
  · exact ⟨{ live with inputs := [.reset] }, _, rfl, live_inv _, step_reset rfl⟩
  · exact ⟨{ live with inputs := [.command 0x1800000000000000] }, _, rfl, live_inv _, step_command rfl (i := .getenv 0 0 0) (by decide)⟩

theorem witness_CommandsKeepInvUnderAnyConfig : ∃ (c : Cfg) (s : State), c.Wf ∧ Inv c s :=
  ⟨Config.cfg, { live with inputs := [] }, Config.cfg_wf, live_inv _⟩

end Sys2Proof.Tests
end

section
/-! PROOFS. The two generators share nothing (R20). What makes a group of registers a generator of its own is said once, as
`IsGenerator`; the run law follows from that alone, by induction on the commands, and both generators of CORE are such. -/

namespace Sys2Proof.Independence

open Sys2Proof Sys2Proof.Machine

/-- The commands picked out by `own` form a generator with the registers `regs`: every other command leaves `regs` alone, and
what an own command writes there and responds depends on `regs` only (R20). -/
structure IsGenerator (c : Cfg) (own : Instr → Bool) {α : Type} (regs : State → α) : Prop where
  foreign_frame : ∀ {i : Instr}, own i = false → ∀ s : State, regs (applyWith c i s) = regs s
  own_regs : ∀ {i : Instr} {s t : State}, own i = true → regs s = regs t →
    regs (applyWith c i s) = regs (applyWith c i t)
  own_response : ∀ {i : Instr} {s t : State}, own i = true → regs s = regs t →
    (applyWith c i s).response = (applyWith c i t).response

/-- Every command returns a response (R80, R81). -/
theorem applyWith_response_some (c : Cfg) (i : Instr) (s : State) : ∃ r, (applyWith c i s).response = some r := by
  rcases applyWith_cases c i s with ⟨_, _, _, e⟩ | ⟨_, _, _, e⟩ | ⟨_, _, _, e⟩ <;> exact ⟨_, congrArg State.response e⟩

section Run

variable {c : Cfg} {own : Instr → Bool} {α : Type} {regs : State → α}

/-- A run leaves in a generator's registers what the run of its own commands alone leaves there. -/
theorem IsGenerator.regs_applyAll (g : IsGenerator c own regs) (is : List Instr) {s t : State} (h : regs s = regs t) :
    regs (applyAll c is s) = regs (applyAll c (is.filter own) t) := by
  induction is generalizing s t with
  | nil => exact h
  | cons i is ih =>
    cases hi : own i with
    | false =>
      rw [List.filter_cons_of_neg (by simp [hi])]
      exact ih ((g.foreign_frame hi s).trans h)
    | true =>
      rw [List.filter_cons_of_pos hi]
      exact ih (g.own_regs hi h)

/-- The responses to a generator's commands in a run are those of the run of its own commands alone. -/
theorem IsGenerator.own_responses (g : IsGenerator c own regs) (is : List Instr) {s t : State} (h : regs s = regs t) :
    (is.zip (responses c is s)).filter (fun p => own p.1) = (is.filter own).zip (responses c (is.filter own) t) := by
  induction is generalizing s t with
  | nil => rfl
  | cons i is ih =>
    obtain ⟨r, hr⟩ := applyWith_response_some c i s
    cases hi : own i with
    | false =>
      have hrest := ih ((g.foreign_frame hi s).trans h)
      simpa [hi, hr] using hrest
    | true =>
      have ht : (applyWith c i t).response = some r := (g.own_response hi h).symm.trans hr
      have hrest := ih (g.own_regs hi h)
      simpa [hi, hr, ht] using hrest

end Run

/-! ### The phase generator -/

/-- What a phase command writes and responds depends on the phase registers only (R20). -/
theorem applyWith_congr_pg {c : Cfg} {i : Instr} {s t : State} (hi : isPhaseCommand i = true) (h : s.pg = t.pg) :
    (applyWith c i s).pg = (applyWith c i t).pg ∧ (applyWith c i s).response = (applyWith c i t).response := by
  cases i with
  | setfreq fnum block multiple d =>
    simp only [applyWith, setfreq]
    cases checkSetfreq c fnum block multiple d <;> simp [h]
  | pgkeyon => simp [applyWith, pgkeyon, h]
  | getphase => simp [applyWith, getphase, h]
  | setatt | setar | setdr | setsl | setsr | setrr | egkeyon | egkeyoff | getenv => cases hi

theorem isGenerator_pg (c : Cfg) : IsGenerator c isPhaseCommand State.pg where
  foreign_frame := applyWith_pg_of_envelope
  own_regs hi h := (applyWith_congr_pg hi h).1
  own_response hi h := (applyWith_congr_pg hi h).2

/-! ### The envelope generator -/

/-- What an envelope setter writes and responds depends on the envelope registers only (R20). -/
theorem completeSetter_mapEnv_congr (o : Option (BitVec 3)) (f : EnvRegs → EnvRegs) {s t : State} (h : s.eg = t.eg) :
    (completeSetter o (State.mapEnv f) s).eg = (completeSetter o (State.mapEnv f) t).eg ∧
      (completeSetter o (State.mapEnv f) s).response = (completeSetter o (State.mapEnv f) t).response := by
  cases o <;> simp [h]

/-- What an envelope command writes and responds depends on the envelope registers only (R20). -/
theorem applyWith_congr_eg {c : Cfg} {i : Instr} {s t : State} (hi : isPhaseCommand i = false) (h : s.eg = t.eg) :
    (applyWith c i s).eg = (applyWith c i t).eg ∧ (applyWith c i s).response = (applyWith c i t).response := by
  cases i with
  | setatt | setar | setdr | setsl | setsr | setrr => exact completeSetter_mapEnv_congr _ _ h
  | egkeyon => simp [applyWith, egkeyon, h]
  | egkeyoff => simp [applyWith, egkeyoff, h]
  | getenv => simp [applyWith, getenv, h]
  | setfreq | pgkeyon | getphase => cases hi

theorem isGenerator_eg (c : Cfg) : IsGenerator c (fun i => !isPhaseCommand i) State.eg where
  foreign_frame hi := applyWith_eg_of_phase (by simpa using hi)
  own_regs hi h := (applyWith_congr_eg (by simpa using hi) h).1
  own_response hi h := (applyWith_congr_eg (by simpa using hi) h).2

/-- Settles O38: each of the two groups of registers is a generator of its own, so the run law holds of both. -/
theorem generatorsAreIndependent : Obligations.GeneratorsAreIndependent := by
  unfold Obligations.GeneratorsAreIndependent
  intro c is s t
  refine ⟨fun hpg => ⟨?_, ?_⟩, fun heg => ⟨?_, ?_⟩⟩
  · exact (isGenerator_pg c).regs_applyAll is hpg
  · exact (isGenerator_pg c).own_responses is hpg
  · exact (isGenerator_eg c).regs_applyAll is heg
  · exact (isGenerator_eg c).own_responses is heg

end Sys2Proof.Independence
end

section
/-! PROOFS. The phase generator (R130, R134 to R138). `getphaseReturnsPreAdvancePhase` says once what a GETPHASE does, and the
statements about the sample after a SETFREQ, after a PGKEYON and at a wrap are read off it; the key-scale number is computed
from the pitch by `keyScaleNumber_eq`, and the envelope generator's indifference to it follows from R20's independence. -/

namespace Sys2Proof.PhaseGenerator

open Sys2Proof Sys2Proof.Machine

/-! ### The key-scale number -/

/-- The two forms of R130's formula agree on a 10-bit fnum, whose top bit is all of `fnum >> 9`. -/
theorem keyScaleNumber_eq {fnum : Nat} (h : fnum ≤ 1023) (block : Nat) :
    keyScaleNumber fnum block = 2 * block + fnum >>> 9 := by
  have hbit : fnum >>> 9 < 2 := by rw [Nat.shiftRight_eq_div_pow]; omega
  rw [keyScaleNumber, Nat.mod_eq_of_lt hbit, ← Nat.shiftLeft_add_eq_or_of_lt (i := 1) hbit, Nat.shiftLeft_eq,
    pow_one, Nat.mul_comm]

theorem keyScaleNumber_le {fnum block : Nat} (hf : fnum ≤ 1023) (hb : block ≤ 7) : keyScaleNumber fnum block ≤ 15 := by
  rw [keyScaleNumber_eq hf, Nat.shiftRight_eq_div_pow]
  omega

theorem keyScaleNumber_eq_testBit (fnum block : Nat) :
    keyScaleNumber fnum block = (block <<< 1) ||| (fnum.testBit 9).toNat := by
  rw [Nat.toNat_testBit, ← Nat.shiftRight_eq_div_pow, keyScaleNumber]

/-! ### SETFREQ -/

/-- A SETFREQ in range writes its registers (R131, R132). -/
theorem setfreq_of_legal {c : Cfg} {fnum block multiple d : Nat} (hf : fnum ≤ 1023) (hb : block ≤ 7)
    (hm : multiple ≤ 15) (hd : d < c.dtRows) (s : State) :
    setfreq c fnum block multiple d s = returnOk 0 (s.mapPhase (writeFrequency c fnum block multiple d)) := by
  rw [setfreq, (checkSetfreq_none_iff c fnum block multiple d).mpr ⟨hf, hb, hm, hd⟩, completeSetter_none]

/-- SETFREQ keeps the phase already accumulated, whether it writes or raises (R134, R214). -/
theorem setfreq_acc (c : Cfg) (fnum block multiple d : Nat) (s : State) :
    (setfreq c fnum block multiple d s).pg.acc = s.pg.acc := by
  rcases completeSetter_cases (checkSetfreq c fnum block multiple d)
      (State.mapPhase (writeFrequency c fnum block multiple d)) s with ⟨k, _, hraise⟩ | ⟨_, hwrite⟩
  · rw [setfreq, hraise, raise_pg]
  · rw [setfreq, hwrite, returnOk_pg, mapPhase_pg, writeFrequency]

/-- The 4-bit register KSN holds the key-scale number of the pitch without loss (R130). -/
theorem setfreq_ksn {c : Cfg} {fnum block multiple d : Nat} (hf : fnum ≤ 1023) (hb : block ≤ 7)
    (hm : multiple ≤ 15) (hd : d < c.dtRows) (s : State) :
    (setfreq c fnum block multiple d s).pg.ksn.toNat = keyScaleNumber fnum block := by
  have hle := keyScaleNumber_le hf hb
  rw [setfreq_of_legal hf hb hm hd, returnOk_pg, mapPhase_pg, writeFrequency, BitVec.toNat_ofNat]
  omega

/-! ### The envelope commands and the phase registers -/

/-- A state is its two groups of registers, its response and its inputs. -/
theorem state_ext {s t : State} (hpg : s.pg = t.pg) (heg : s.eg = t.eg) (hresponse : s.response = t.response)
    (hinputs : s.inputs = t.inputs) : s = t := by
  cases s
  cases t
  rw [State.mk.injEq]
  exact ⟨hpg, heg, hresponse, hinputs⟩

/-- An envelope command does the same whatever the phase registers hold (R20, R130). -/
theorem applyWith_with_pg {c : Cfg} {i : Instr} (hi : isPhaseCommand i = false) (s : State) (p : PhaseRegs) :
    applyWith c i { s with pg := p } = { applyWith c i s with pg := p } := by
  obtain ⟨heg, hresponse⟩ := Independence.applyWith_congr_eg (c := c) (s := { s with pg := p }) (t := s) hi rfl
  have hinputs := (applyWith_inputs c i { s with pg := p }).trans (applyWith_inputs c i s).symm
  exact state_ext (applyWith_pg_of_envelope hi _) heg hresponse hinputs

/-- Settles O3: KSN after a SETFREQ in range, and the envelope commands' indifference to it. -/
theorem keyScaleNumberComesFromPitch : Obligations.KeyScaleNumberComesFromPitch := by
  unfold Obligations.KeyScaleNumberComesFromPitch
  refine ⟨fun fnum block multiple d s hf hb hm hd => ?_, fun i s p hi => ?_⟩
  · have hksn := setfreq_ksn hf hb hm hd s
    refine ⟨_, exec_eq _ s, ?_, ?_, ?_⟩
    · exact hksn.trans (keyScaleNumber_eq_testBit fnum block)
    · exact hksn.trans (keyScaleNumber_eq hf block)
    · exact hksn.trans_le (keyScaleNumber_le hf hb)
  · refine ⟨_, exec_eq i s, applyWith_pg_of_envelope hi s, ?_⟩
    rw [exec_eq, applyWith_with_pg hi]

/-! ### GETPHASE, and the sample after another command -/

/-- Settles O6: the meaning of GETPHASE, written out. -/
theorem getphaseReturnsPreAdvancePhase : Obligations.GetphaseReturnsPreAdvancePhase := by
  unfold Obligations.GetphaseReturnsPreAdvancePhase
  intro vdepth vphase fbin s
  exact exec_eq (.getphase vdepth vphase fbin) s

/-- Settles O4: SETFREQ keeps ACC on both of its paths, so the GETPHASE after it starts from the phase held before. -/
theorem frequencyChangeKeepsPhase : Obligations.FrequencyChangeKeepsPhase := by
  unfold Obligations.FrequencyChangeKeepsPhase
  intro fnum block multiple d s
  have hacc := setfreq_acc Config.cfg fnum block multiple d s
  refine ⟨_, exec_eq _ s, hacc, fun vdepth vphase fbin => ?_⟩
  rw [← hacc]
  exact ⟨_, getphaseReturnsPreAdvancePhase vdepth vphase fbin _, rfl, rfl, rfl⟩

/-- Settles O5: PGKEYON leaves ACC = 0, which is the phase the next GETPHASE returns; EGKEYOFF is an envelope command. -/
theorem pgkeyonStartsFreshCycle : Obligations.PgkeyonStartsFreshCycle := by
  unfold Obligations.PgkeyonStartsFreshCycle
  refine ⟨by decide, fun s => ⟨⟨_, exec_eq .pgkeyon s, rfl, fun vdepth vphase fbin => ?_⟩, ?_⟩⟩
  · exact ⟨_, getphaseReturnsPreAdvancePhase vdepth vphase fbin _, rfl⟩
  · exact ⟨_, exec_eq .egkeyoff s, applyWith_pg_of_envelope rfl s⟩

/-- Settles O7: the new ACC and the number of wraps are remainder and quotient of the sum by 2^N. -/
theorem phaseWrapIsSilent : Obligations.PhaseWrapIsSilent := by
  unfold Obligations.PhaseWrapIsSilent
  intro vdepth vphase fbin s
  exact ⟨_, _, Nat.mod_lt _ (Nat.two_pow_pos _), (Nat.div_add_mod' _ _).symm,
    getphaseReturnsPreAdvancePhase vdepth vphase fbin s⟩

end Sys2Proof.PhaseGenerator
end

section
/-! PROOFS. The setters of both generators and the state accumulated so far (R134, R169). Each setter is a `completeSetter`, so
it is enough that its write keeps STAGE, LEVEL, DAMPCNT and ACC: raising InvalidParameter writes no register at all. -/

namespace Sys2Proof.EnvelopeGenerator

open Sys2Proof Sys2Proof.Machine

/-- `t` holds the accumulated state of `s`: the registers that tell where the envelope and the wave have got to (R169, R134). -/
def KeepsAccumulated (s t : State) : Prop :=
  t.eg.stage = s.eg.stage ∧ t.eg.level = s.eg.level ∧ t.eg.dampCnt = s.eg.dampCnt ∧ t.pg.acc = s.pg.acc

/-- A setter keeps the accumulated state if its write does, whatever its check finds. -/
theorem completeSetter_keepsAccumulated (o : Option (BitVec 3)) {w : State → State} {s : State}
    (hw : KeepsAccumulated s (w s)) : KeepsAccumulated s (completeSetter o w s) := by
  rcases completeSetter_cases o w s with ⟨k, _, hraise⟩ | ⟨_, hwrite⟩
  · rw [hraise]
    exact ⟨rfl, rfl, rfl, rfl⟩
  · rw [hwrite]
    exact hw

/-- Under every configuration the seven setters keep the accumulated state, from every state and with any operands. -/
theorem setter_keepsAccumulated (c : Cfg) {i : Instr} (hi : i.op ∈ bootSetters) (s : State) :
    KeepsAccumulated s (applyWith c i s) := by
  cases i with
  | setfreq | setatt | setar | setdr | setsl | setsr | setrr =>
    exact completeSetter_keepsAccumulated _ ⟨rfl, rfl, rfl, rfl⟩
  | pgkeyon | getphase | egkeyon | egkeyoff | getenv => simp [Instr.op, bootSetters] at hi

/-- Settles O16: the statement is `setter_keepsAccumulated` at this machine's configuration. -/
theorem settersKeepAccumulatedState : Obligations.SettersKeepAccumulatedState := by
  unfold Obligations.SettersKeepAccumulatedState
  intro i s hi
  exact ⟨_, exec_eq i s, setter_keepsAccumulated Config.cfg hi s⟩

end Sys2Proof.EnvelopeGenerator
end

section
/-! PROOFS. The one exception and Idle (R214, R216, R227). A command's response tells what it did: `applyWith_cases` leaves a
raise as the only way to INVALID_PARAMETER, and a raise writes no register. In Idle the level is full silence, so the output
is clamped to MAXATT whatever KSLATT and the amplitude modulation add. -/

namespace Sys2Proof.Exceptions

open Sys2Proof Sys2Proof.Machine

/-! ### Raising InvalidParameter -/

/-- The five commands that are no setters complete with status OK, under every configuration (R216). -/
theorem applyWith_response_ok {i : Instr} (hi : i.op ∈ [Op.pgkeyon, .egkeyon, .egkeyoff, .getphase, .getenv]) (c : Cfg)
    (s : State) : ∃ v, (applyWith c i s).response = some (Response.okWith v) := by
  cases i with
  | pgkeyon | egkeyon | egkeyoff | getphase | getenv => exact ⟨_, returnOk_response _ _⟩
  | setfreq | setatt | setar | setdr | setsl | setsr | setrr => simp [Instr.op] at hi

/-- A command that responds INVALID_PARAMETER changes nothing but the response, under every configuration (R214). -/
theorem applyWith_eq_of_invalid {c : Cfg} {i : Instr} {s : State} {r : Response}
    (hr : (applyWith c i s).response = some r) (hinvalid : r.status = .invalidParameter) :
    applyWith c i s = { s with response := some r } := by
  rcases applyWith_cases c i s with ⟨k, _, _, hraise⟩ | ⟨_, v, f, hphase⟩ | ⟨_, v, f, henv⟩
  · rw [hraise, raise_response] at hr
    rw [hraise, ← hr]
    rfl
  · rw [hphase, returnOk_response] at hr
    cases hr
    cases hinvalid
  · rw [henv, returnOk_response] at hr
    cases hr
    cases hinvalid

/-- Settles O34: `applyWith_response_ok` and `applyWith_eq_of_invalid` at this machine's configuration. -/
theorem onlySettersRaiseAndThenNothingChanges : Obligations.OnlySettersRaiseAndThenNothingChanges := by
  unfold Obligations.OnlySettersRaiseAndThenNothingChanges
  refine ⟨fun i s hi => ?_, fun i s t r hexec hr hinvalid => ?_⟩
  · obtain ⟨v, hv⟩ := applyWith_response_ok hi Config.cfg s
    exact ⟨_, v, exec_eq i s, hv⟩
  · rw [exec_eq] at hexec
    cases hexec
    exact applyWith_eq_of_invalid hr hinvalid

/-! ### Idle -/

/-- At full silence the output is MAXATT, whatever is added to the level (R180). -/
theorem envOut_lmax (c : Cfg) (kslAtt amDepth amDam lfoIn : Nat) :
    envOut c c.lmax kslAtt amDepth amDam lfoIn = c.maxAtt := by
  have hlevel : c.lmax >>> c.envFracBits = c.maxAtt := by
    rw [Nat.shiftRight_eq_div_pow, Cfg.lmax, Nat.mul_div_cancel _ (Nat.two_pow_pos _)]
  rw [envOut, hlevel, Nat.add_assoc, Nat.min_eq_left (Nat.le_add_right _ _)]

/-- GETENV in Idle stays there and keeps the level (R173). -/
theorem advanceEnv_of_idle {e : EnvRegs} (h : e.stage = .idle) (c : Cfg) : advanceEnv c e = idleSample e := by
  rw [advanceEnv, h]

/-- Settles O35: every command executes from any state, and the GETENV of an Idle at full silence outputs MAXATT. -/
theorem idleExecutesEveryCommand : Obligations.IdleExecutesEveryCommand := by
  unfold Obligations.IdleExecutesEveryCommand
  intro s hidle hlevel
  refine ⟨fun i => ⟨_, exec_eq i s⟩, fun vdepth vphase fbin => ?_, fun amDepth amDam lfoIn => ?_⟩
  · exact ⟨_, PhaseGenerator.getphaseReturnsPreAdvancePhase vdepth vphase fbin s, rfl⟩
  · have hadvance := advanceEnv_of_idle hidle Config.cfg
    have hout : envOut Config.cfg (advanceEnv Config.cfg s.eg).level s.eg.kslAtt amDepth amDam lfoIn =
        Config.cfg.maxAtt := by
      rw [hadvance, idleSample, hlevel]
      exact envOut_lmax _ _ _ _ _
    refine ⟨_, exec_eq (.getenv amDepth amDam lfoIn) s, ?_, ?_⟩
    · rw [applyWith, getenv, returnOk_response, hout, Response.okWith]
    · rw [applyWith, getenv, returnOk_eg, mapEnv_eg, hadvance, idleSample]

end Sys2Proof.Exceptions
end

section
/-! PROOFS. Decoder and encoder are inverse to each other (R71, R72, R74, R84). A word is its five fields (`word_ext`), so a
row's mask and match say of a word that its opcode is the row's and its unused fields are 0 (`and_mask_eq_matchWord_iff`);
`decode_eq_ok_iff` says with that when a word decodes and to what, and every statement about words is read off it. -/

namespace Sys2Proof.Encoding

open Sys2Proof Sys2Proof.Machine

/-! ### A word is its five fields -/

theorem word_ext {v w : CommandWord} (hop : fieldOp v = fieldOp w) (ha : fieldA v = fieldA w) (hb : fieldB v = fieldB w)
    (hc : fieldC v = fieldC w) (hd : fieldD v = fieldD w) : v = w := by
  have hop' := congrArg BitVec.toNat hop
  rw [fieldOp_eq, fieldOp_eq] at hop'
  rw [fieldA_eq, fieldA_eq] at ha
  rw [fieldB_eq, fieldB_eq] at hb
  rw [fieldC_eq, fieldC_eq] at hc
  rw [fieldD_eq, fieldD_eq] at hd
  apply BitVec.eq_of_toNat_eq
  omega

theorem fieldA_lt (w : CommandWord) : fieldA w < 65536 := by rw [fieldA_eq]; exact Nat.mod_lt _ (by decide)
theorem fieldB_lt (w : CommandWord) : fieldB w < 65536 := by rw [fieldB_eq]; exact Nat.mod_lt _ (by decide)
theorem fieldC_lt (w : CommandWord) : fieldC w < 65536 := by rw [fieldC_eq]; exact Nat.mod_lt _ (by decide)
theorem fieldD_lt (w : CommandWord) : fieldD w < 256 := by rw [fieldD_eq]; exact Nat.mod_lt _ (by decide)

/-- Reading the fields of a packed word gives the operands packed, when they fit. -/
theorem fields_packWord {op a b c d : Nat} (hop : op < 256) (ha : a < 65536) (hb : b < 65536) (hc : c < 65536)
    (hd : d < 256) :
    (fieldOp (packWord op a b c d)).toNat = op ∧ fieldA (packWord op a b c d) = a ∧ fieldB (packWord op a b c d) = b ∧
      fieldC (packWord op a b c d) = c ∧ fieldD (packWord op a b c d) = d := by
  rw [fieldOp_eq, fieldA_eq, fieldB_eq, fieldC_eq, fieldD_eq, packWord_toNat hop ha hb hc hd]
  omega

/-- Packing the fields of a word gives the word. -/
theorem packWord_fields (w : CommandWord) :
    packWord (fieldOp w).toNat (fieldA w) (fieldB w) (fieldC w) (fieldD w) = w := by
  obtain ⟨hop, ha, hb, hc, hd⟩ :=
    fields_packWord (fieldOp w).isLt (fieldA_lt w) (fieldB_lt w) (fieldC_lt w) (fieldD_lt w)
  exact word_ext (BitVec.eq_of_toNat_eq hop) ha hb hc hd

/-! ### Masks, field by field -/

theorem fieldOp_and (v w : CommandWord) : fieldOp (v &&& w) = fieldOp v &&& fieldOp w := BitVec.extractLsb'_and
theorem fieldA_and (v w : CommandWord) : fieldA (v &&& w) = fieldA v &&& fieldA w := by
  simp only [fieldA, BitVec.extractLsb'_and, BitVec.toNat_and]
theorem fieldB_and (v w : CommandWord) : fieldB (v &&& w) = fieldB v &&& fieldB w := by
  simp only [fieldB, BitVec.extractLsb'_and, BitVec.toNat_and]
theorem fieldC_and (v w : CommandWord) : fieldC (v &&& w) = fieldC v &&& fieldC w := by
  simp only [fieldC, BitVec.extractLsb'_and, BitVec.toNat_and]
theorem fieldD_and (v w : CommandWord) : fieldD (v &&& w) = fieldD v &&& fieldD w := by
  simp only [fieldD, BitVec.extractLsb'_and, BitVec.toNat_and]

/-- A mask that covers a wide field keeps it. -/
theorem and_wide {v : Nat} (h : v < 65536) : v &&& 65535 = v := Nat.and_two_pow_sub_one_of_lt_two_pow (n := 16) h

/-- A mask that covers the narrow field keeps it. -/
theorem and_narrow {v : Nat} (h : v < 256) : v &&& 255 = v := Nat.and_two_pow_sub_one_of_lt_two_pow (n := 8) h

/-- The fields of a row's match: its opcode, and 0 elsewhere (R72). -/
theorem fields_matchWord (o : Op) :
    fieldOp o.matchWord = o.code ∧ fieldA o.matchWord = 0 ∧ fieldB o.matchWord = 0 ∧ fieldC o.matchWord = 0 ∧
      fieldD o.matchWord = 0 := by
  cases o <;> decide

/-- Among the operands a, b, c, d those that the format does not use are 0 (R72, R76). -/
def UnusedZero (a b c d : Nat) : Format → Prop
  | .z => a = 0 ∧ b = 0 ∧ c = 0 ∧ d = 0
  | .s => b = 0 ∧ c = 0 ∧ d = 0
  | .t => d = 0
  | .f => True

/-! Which bits of each field a format's mask covers: of a field the format uses none, of any other field all (R72). -/

theorem fieldA_mask (fmt : Format) : fieldA fmt.mask = if fmt = .z then 65535 else 0 := by cases fmt <;> decide
theorem fieldB_mask (fmt : Format) : fieldB fmt.mask = if fmt = .z ∨ fmt = .s then 65535 else 0 := by
  cases fmt <;> decide
theorem fieldC_mask (fmt : Format) : fieldC fmt.mask = if fmt = .z ∨ fmt = .s then 65535 else 0 := by
  cases fmt <;> decide
theorem fieldD_mask (fmt : Format) : fieldD fmt.mask = if fmt = .f then 0 else 255 := by cases fmt <;> decide

/-- A masked word's fields: the opcode, the unused fields, and 0 where the format uses the field (R72). -/
theorem and_mask_eq_iff (fmt : Format) {v w : CommandWord}
    (hv : fieldA v = 0 ∧ fieldB v = 0 ∧ fieldC v = 0 ∧ fieldD v = 0) :
    w &&& fmt.mask = v ↔ fieldOp w = fieldOp v ∧ UnusedZero (fieldA w) (fieldB w) (fieldC w) (fieldD w) fmt := by
  obtain ⟨hva, hvb, hvc, hvd⟩ := hv
  have hfields : w &&& fmt.mask = v ↔ fieldOp w &&& fieldOp fmt.mask = fieldOp v ∧ fieldA w &&& fieldA fmt.mask = 0 ∧
      fieldB w &&& fieldB fmt.mask = 0 ∧ fieldC w &&& fieldC fmt.mask = 0 ∧ fieldD w &&& fieldD fmt.mask = 0 := by
    rw [← fieldOp_and, ← fieldA_and, ← fieldB_and, ← fieldC_and, ← fieldD_and]
    refine ⟨?_, fun ⟨hop, ha, hb, hc, hd⟩ => word_ext hop (ha.trans hva.symm) (hb.trans hvb.symm) (hc.trans hvc.symm)
      (hd.trans hvd.symm)⟩
    rintro rfl
    exact ⟨rfl, hva, hvb, hvc, hvd⟩
  have hop : fieldOp fmt.mask = BitVec.allOnes 8 := by cases fmt <;> decide
  rw [hfields, hop, BitVec.and_allOnes]
  have ha := and_wide (fieldA_lt w)
  have hb := and_wide (fieldB_lt w)
  have hc := and_wide (fieldC_lt w)
  have hd := and_narrow (fieldD_lt w)
  cases fmt <;> simp [fieldA_mask, fieldB_mask, fieldC_mask, fieldD_mask, UnusedZero, ha, hb, hc, hd]

/-- A word has a row's match under the row's mask exactly if it bears the row's opcode and its unused fields are 0. -/
theorem and_mask_eq_matchWord_iff (o : Op) (w : CommandWord) :
    w &&& o.format.mask = o.matchWord ↔
      fieldOp w = o.code ∧ UnusedZero (fieldA w) (fieldB w) (fieldC w) (fieldD w) o.format := by
  obtain ⟨hop, hzero⟩ := fields_matchWord o
  rw [and_mask_eq_iff o.format hzero, hop]

/-! ### The decoder -/

/-- A word decodes exactly if it has some row's match under that row's mask, and then to the row's constructor applied to its
fields (R84). -/
theorem decode_eq_ok_iff (w : CommandWord) (i : Instr) :
    decode w = .ok i ↔
      ∃ o : Op, w &&& o.format.mask = o.matchWord ∧ o.instr (fieldA w) (fieldB w) (fieldC w) (fieldD w) = i := by
  constructor
  · intro h
    unfold decode at h
    split at h
    · cases h
    · next o _ =>
      split at h
      · next hmatch => exact ⟨o, hmatch, by simpa using h⟩
      · cases h
  · rintro ⟨o, hmatch, rfl⟩
    obtain ⟨hop, _⟩ := (and_mask_eq_matchWord_iff o w).mp hmatch
    have hrow : Op.ofCode (fieldOp w) = some o := by rw [hop, Op.ofCode_code]
    rw [decode, hrow]
    exact if_pos hmatch

/-- A row's constructor gives a command of the row. -/
@[simp] theorem op_instr (o : Op) (a b c d : Nat) : (o.instr a b c d).op = o := by cases o <;> rfl

/-- A command is its row's constructor applied to its operands. -/
theorem instr_operands (i : Instr) :
    i.op.instr i.operands.1 i.operands.2.1 i.operands.2.2.1 i.operands.2.2.2 = i := by cases i <;> rfl

/-- The operands of a row's command are those given, when the unused ones are 0. -/
theorem operands_instr {o : Op} {a b c d : Nat} (h : UnusedZero a b c d o.format) :
    (o.instr a b c d).operands = (a, b, c, d) := by
  cases o <;> simp only [Op.format, UnusedZero] at h <;> simp [Op.instr, Instr.operands, h]

/-- A command has the operand 0 in every field its format does not use (R72). -/
theorem operands_unusedZero (i : Instr) :
    UnusedZero i.operands.1 i.operands.2.1 i.operands.2.2.1 i.operands.2.2.2 i.op.format := by
  cases i <;> simp [Instr.operands, Instr.op, Op.format, UnusedZero]

/-- A command is well formed exactly if its four operands fit their fields (R71, R84). -/
theorem wellFormed_iff (i : Instr) :
    i.wellFormed = true ↔
      i.operands.1 < 65536 ∧ i.operands.2.1 < 65536 ∧ i.operands.2.2.1 < 65536 ∧ i.operands.2.2.2 < 256 := by
  cases i <;> simp [Instr.wellFormed, Instr.operands, fitsWide, fitsNarrow, and_assoc]

/-! ### Encoding and decoding -/

/-- Settles O41: the fields of the encoded command are its row's opcode and its operands, so its row's mask matches. -/
theorem decodeOfEncode : Obligations.DecodeOfEncode := by
  unfold Obligations.DecodeOfEncode
  intro i hi
  obtain ⟨ha, hb, hc, hd⟩ := (wellFormed_iff i).mp hi
  obtain ⟨hop, hfa, hfb, hfc, hfd⟩ := fields_packWord i.op.code.isLt ha hb hc hd
  have hmatch : encode i &&& i.op.format.mask = i.op.matchWord := by
    rw [and_mask_eq_matchWord_iff, encode, hfa, hfb, hfc, hfd]
    exact ⟨BitVec.eq_of_toNat_eq hop, operands_unusedZero i⟩
  refine (decode_eq_ok_iff _ i).mpr ⟨i.op, hmatch, ?_⟩
  rw [encode, hfa, hfb, hfc, hfd]
  exact instr_operands i

/-- Settles O42: the command decoded has the word's fields for operands, and packing a word's fields gives the word. -/
theorem encodeOfDecode : Obligations.EncodeOfDecode := by
  unfold Obligations.EncodeOfDecode
  intro w i h
  obtain ⟨o, hmatch, rfl⟩ := (decode_eq_ok_iff w i).mp h
  obtain ⟨hop, hunused⟩ := (and_mask_eq_matchWord_iff o w).mp hmatch
  have hoperands := operands_instr hunused
  constructor
  · rw [encode, hoperands, op_instr, ← hop]
    exact packWord_fields w
  · rw [wellFormed_iff, hoperands]
    exact ⟨fieldA_lt w, fieldB_lt w, fieldC_lt w, fieldD_lt w⟩

/-- Settles O44: the words are read by the decoder. -/
theorem workedEncodingsDecode : Obligations.WorkedEncodingsDecode := by
  unfold Obligations.WorkedEncodingsDecode
  decide

/-! ### The rows of the opcode table -/

/-- The rows of the opcode table are the rows of the opcode map, each with its match and its mask. -/
theorem opcodeRows_eq : opcodeRows = Op.all.map fun o => (o, o.matchWord, o.format.mask) := by decide

theorem mem_opcodeRows (row : Op × CommandWord × CommandWord) :
    row ∈ opcodeRows ↔ row = (row.1, row.1.matchWord, row.1.format.mask) := by
  have hall : row.1 ∈ Op.all := by cases row.1 <;> decide
  rw [opcodeRows_eq, List.mem_map]
  constructor
  · rintro ⟨_, _, rfl⟩
    rfl
  · intro h
    exact ⟨row.1, hall, h.symm⟩

/-- A word decodes to a command of a row exactly if it has the row's match under the row's mask. -/
theorem decodes_to_row_iff (o : Op) (w : CommandWord) :
    (∃ i, decode w = .ok i ∧ i.op = o) ↔ w &&& o.format.mask = o.matchWord := by
  constructor
  · rintro ⟨i, hi, rfl⟩
    obtain ⟨o, hmatch, rfl⟩ := (decode_eq_ok_iff w i).mp hi
    rwa [op_instr]
  · intro hmatch
    exact ⟨_, (decode_eq_ok_iff w _).mpr ⟨o, hmatch, rfl⟩, op_instr o _ _ _ _⟩

/-- Settles O43: `decodes_to_row_iff` at each row of the table. -/
theorem wordsDecodeByMaskAndMatch : Obligations.WordsDecodeByMaskAndMatch := by
  unfold Obligations.WordsDecodeByMaskAndMatch
  intro row hrow w
  rw [(mem_opcodeRows row).mp hrow]
  exact decodes_to_row_iff row.1 w

/-- A word is rejected exactly if it has no row's match under the row's mask (R75, R76). -/
theorem decode_rejects_iff (w : CommandWord) :
    (∃ e, decode w = .error e) ↔ ∀ row ∈ opcodeRows, w &&& row.2.2 ≠ row.2.1 := by
  constructor
  · rintro ⟨e, he⟩ row hrow hmatch
    obtain ⟨i, hi, _⟩ := (wordsDecodeByMaskAndMatch row hrow w).mpr hmatch
    rw [he] at hi
    cases hi
  · intro h
    match hw : decode w with
    | .error e => exact ⟨e, rfl⟩
    | .ok i =>
      obtain ⟨o, hmatch, _⟩ := (decode_eq_ok_iff w i).mp hw
      exact absurd hmatch (h (o, o.matchWord, o.format.mask) ((mem_opcodeRows _).mpr rfl))

/-! ### Bytes and text -/

/-- The bytes of a word stand for the word's number. -/
theorem bytesToNat_wordBytes (w : CommandWord) : bytesToNat (wordBytes w) = w.toNat := by
  have := w.isLt
  simp only [bytesToNat, wordBytes, List.foldl_cons, List.foldl_nil, BitVec.extractLsb'_toNat, Nat.shiftRight_eq_div_pow]
  omega

/-- Settles O45: the bytes of a word stand for its number, and the length is checked first. -/
theorem storedBytesDecodeAsWord : Obligations.StoredBytesDecodeAsWord := by
  unfold Obligations.StoredBytesDecodeAsWord
  refine ⟨fun w => ?_, fun bs hlen => if_neg hlen⟩
  have hlen : (wordBytes w).length = 8 := rfl
  rw [decodeBytes, if_pos hlen, bytesToNat_wordBytes, BitVec.ofNat_toNat, BitVec.setWidth_eq]

/-- A line is assembled only if every operand fits its field (R86). -/
theorem wellFormed_of_parseLine {line : List Char} {is : List Instr} (h : parseLine line = .ok is) :
    ∀ i ∈ is, i.wellFormed = true := by
  unfold parseLine at h
  dsimp only at h
  split at h
  · cases h
    simp
  · split at h
    · cases h
    · split at h
      · cases h
      · split at h
        · next hall =>
          cases h
          exact List.all_eq_true.mp hall
        · cases h

/-- Every command of a program that can be assembled is well formed. -/
theorem wellFormed_of_parseLines {lines : List (List Char)} {is : List Instr} (h : parseLines lines = .ok is) :
    ∀ i ∈ is, i.wellFormed = true := by
  induction lines generalizing is with
  | nil =>
    cases h
    simp
  | cons line lines ih =>
    rw [parseLines] at h
    split at h
    · next js ks hline hlines =>
      cases h
      intro i hi
      rcases List.mem_append.mp hi with hi | hi
      · exact wellFormed_of_parseLine hline i hi
      · exact ih hlines i hi
    · cases h
    · cases h

/-- Settles O46: every word assembled encodes a well-formed command. -/
theorem assembledWordsAreLegal : Obligations.AssembledWordsAreLegal := by
  unfold Obligations.AssembledWordsAreLegal
  intro text ws h w hw
  rw [assemble] at h
  split at h
  · next is his =>
    cases h
    obtain ⟨i, hi, rfl⟩ := List.mem_map.mp hw
    exact ⟨i, decodeOfEncode i (wellFormed_of_parseLines his i hi)⟩
  · cases h

end Sys2Proof.Encoding
end

section
/-! PROOFS. The registers that the setters write, and the samples of the phase accumulator (R130 to R144, R162 to R169). A setter
in range writes and answers OK, one out of range reports its first offending operand and writes nothing; both are read off its
check. The increment is the floor of half the doubled increment, which is a whole number where the multiplier is. -/

namespace Sys2Proof.Setters

open Sys2Proof Sys2Proof.Machine

/-! ### The checks -/

theorem checkSetfreq_eq_some {c : Cfg} {fnum block multiple d : Nat} {k : BitVec 3}
    (h : 1023 < fnum ∧ k = 1 ∨ fnum ≤ 1023 ∧ 7 < block ∧ k = 2 ∨ fnum ≤ 1023 ∧ block ≤ 7 ∧ 15 < multiple ∧ k = 3 ∨
      fnum ≤ 1023 ∧ block ≤ 7 ∧ multiple ≤ 15 ∧ c.dtRows ≤ d ∧ k = 4) :
    checkSetfreq c fnum block multiple d = some k := by
  rw [checkSetfreq]
  rcases h with ⟨ha, rfl⟩ | ⟨ha, hb, rfl⟩ | ⟨ha, hb, hm, rfl⟩ | ⟨ha, hb, hm, hd, rfl⟩
  · rw [if_pos ha]
  · rw [if_neg ha.not_gt, if_pos hb]
  · rw [if_neg ha.not_gt, if_neg hb.not_gt, if_pos hm]
  · rw [if_neg ha.not_gt, if_neg hb.not_gt, if_neg hm.not_gt, if_pos hd]

theorem checkSetatt_eq_some {fnum block ksl : Nat} {k : BitVec 3}
    (h : 1023 < fnum ∧ k = 1 ∨ fnum ≤ 1023 ∧ 7 < block ∧ k = 2 ∨ fnum ≤ 1023 ∧ block ≤ 7 ∧ 3 < ksl ∧ k = 3) :
    checkSetatt fnum block ksl = some k := by
  rw [checkSetatt]
  rcases h with ⟨ha, rfl⟩ | ⟨ha, hb, rfl⟩ | ⟨ha, hb, hc, rfl⟩
  · rw [if_pos ha]
  · rw [if_neg ha.not_gt, if_pos hb]
  · rw [if_neg ha.not_gt, if_neg hb.not_gt, if_pos hc]

theorem checkRate_eq_some {rate ksr ksn : Nat} {k : BitVec 3}
    (h : 15 < rate ∧ k = 1 ∨ rate ≤ 15 ∧ 1 < ksr ∧ k = 2 ∨ rate ≤ 15 ∧ ksr ≤ 1 ∧ 15 < ksn ∧ k = 3) :
    checkRate rate ksr ksn = some k := by
  rw [checkRate]
  rcases h with ⟨ha, rfl⟩ | ⟨ha, hb, rfl⟩ | ⟨ha, hb, hc, rfl⟩
  · rw [if_pos ha]
  · rw [if_neg ha.not_gt, if_pos hb]
  · rw [if_neg ha.not_gt, if_neg hb.not_gt, if_pos hc]

/-! ### Operands out of range -/

/-- A setter whose check finds an operand out of range reports it and writes nothing (R211, R214). -/
theorem completeSetter_of_some {o : Option (BitVec 3)} {k : BitVec 3} (h : o = some k) (w : State → State) (s : State) :
    completeSetter o w s = { s with response := some ⟨.invalidParameter, k, 0⟩ } := by
  rw [h, completeSetter_some]
  rfl

/-- A setter whose check finds every operand in range writes and answers OK. -/
theorem completeSetter_of_none {o : Option (BitVec 3)} (h : o = none) (w : State → State) (s : State) :
    completeSetter o w s = returnOk 0 (w s) := by rw [h, completeSetter_none]

/-- Settles O2: SETFREQ is a setter, so its check decides. -/
theorem setfreqRejectsFirstOffendingOperand : Obligations.SetfreqRejectsFirstOffendingOperand := by
  unfold Obligations.SetfreqRejectsFirstOffendingOperand
  intro fnum block multiple d s k h
  rw [exec_eq]
  exact congrArg Host.Outcome.next (completeSetter_of_some (checkSetfreq_eq_some h) _ s)

/-- Settles O15: the six envelope setters, each by its check. -/
theorem envelopeSettersRejectFirstOffendingOperand : Obligations.EnvelopeSettersRejectFirstOffendingOperand := by
  unfold Obligations.EnvelopeSettersRejectFirstOffendingOperand
  refine ⟨fun fnum block ksl s k h => ?_, fun rate ksr ksn s k h i hi => ?_, fun sl s h => ?_⟩
  · rw [exec_eq]
    exact congrArg Host.Outcome.next (completeSetter_of_some (checkSetatt_eq_some h) _ s)
  · have hraise := fun w => completeSetter_of_some (checkRate_eq_some h) w s
    simp only [List.mem_cons, List.not_mem_nil, or_false] at hi
    rw [exec_eq]
    rcases hi with rfl | rfl | rfl | rfl <;> exact congrArg Host.Outcome.next (hraise _)
  · rw [exec_eq]
    exact congrArg Host.Outcome.next (completeSetter_of_some (if_pos h) _ s)

/-! ### Operands in range: the envelope setters -/

/-- Settles O11: KSL_ATT_FN is 0 at ksl = 0 (R109). -/
theorem setattStoresStaticAttenuation : Obligations.SetattStoresStaticAttenuation := by
  unfold Obligations.SetattStoresStaticAttenuation
  intro fnum block ksl s hf hb hk
  have hatt : (if ksl = 0 then 0 else Config.cfg.kslAttFn ksl block fnum) = Config.cfg.kslAttFn ksl block fnum := by
    split
    · next h0 => rw [h0, Config.cfg_wf.kslAttFn_off block hb fnum hf]
    · rfl
  rw [hatt, exec_eq]
  exact congrArg Host.Outcome.next (completeSetter_of_none ((checkSetatt_none_iff fnum block ksl).mpr ⟨hf, hb, hk⟩) _ s)

/-- Settles O12: with the same block and the same top bits of fnum the curve gives the same (R109 (b)). -/
theorem setattReadsOnlyTopBitsOfFnum : Obligations.SetattReadsOnlyTopBitsOfFnum := by
  unfold Obligations.SetattReadsOnlyTopBitsOfFnum
  intro c fnum fnum' block block' ksl s hc hf hf' hb hk hfollow
  obtain ⟨rfl, htop⟩ : block = block' ∧ fnum >>> (10 - c.kslFnumBits) = fnum' >>> (10 - c.kslFnumBits) := by
    simpa [levelMustFollow] using hfollow
  have hcheck := (checkSetatt_none_iff fnum block ksl).mpr ⟨hf, hb, hk⟩
  have hcheck' := (checkSetatt_none_iff fnum' block ksl).mpr ⟨hf', hb, hk⟩
  simp only [applyWith, setatt, hcheck, hcheck', hc.kslAttFn_top ksl hk block hb fnum hf fnum' hf' htop]

/-- Settles O13: the four share their check, and each writes its own register. -/
theorem rateSettersStoreActualRate : Obligations.RateSettersStoreActualRate := by
  unfold Obligations.RateSettersStoreActualRate
  intro rate ksr ksn s hr hs hn
  have hwrite := fun w => completeSetter_of_none ((checkRate_none_iff rate ksr ksn).mpr ⟨hr, hs, hn⟩) w s
  simp only [exec_eq]
  exact ⟨congrArg Host.Outcome.next (hwrite _), congrArg Host.Outcome.next (hwrite _),
    congrArg Host.Outcome.next (hwrite _), congrArg Host.Outcome.next (hwrite _)⟩

/-- Settles O14: SL_MAP is MAXATT at 15 (R113). -/
theorem setslStoresMappedLevel : Obligations.SetslStoresMappedLevel := by
  unfold Obligations.SetslStoresMappedLevel
  intro sl s hs
  have hmap : (if sl = 15 then Config.cfg.maxAtt else Config.cfg.slMap sl) = Config.cfg.slMap sl := by
    split
    · next h15 => rw [h15, Config.cfg_wf.slMap_top]
    · rfl
  rw [hmap, exec_eq]
  exact congrArg Host.Outcome.next (completeSetter_of_none ((checkSetsl_none_iff sl).mpr hs) _ s)

/-! ### Operands in range: SETFREQ and its increment -/

theorem keyScaleNumber_eq_div {fnum : Nat} (h : fnum ≤ 1023) (block : Nat) :
    keyScaleNumber fnum block = 2 * block + fnum / 512 := by
  rw [PhaseGenerator.keyScaleNumber_eq h, Nat.shiftRight_eq_div_pow]

theorem baseIncrement_eq (c : Cfg) (fnum block : Nat) :
    baseIncrement c fnum block = fnum * 2 ^ block / 2 ^ c.fixedShift := by
  rw [baseIncrement, Nat.shiftLeft_eq, Nat.shiftRight_eq_div_pow]

/-- The increment by the formula of R131, with the integers of R133. -/
theorem increment_eq {fnum : Nat} (h : fnum ≤ 1023) (c : Cfg) (block multiple d : Nat) :
    increment c fnum block multiple d =
      ((((fnum * 2 ^ block / 2 ^ c.fixedShift : Nat) : Int) + c.dtInc d (2 * block + fnum / 512)) *
        (c.mult2 multiple : Int) / 2 % (2 ^ c.phaseBits : Int)).toNat := by
  rw [increment, doubledIncrement, baseIncrement_eq, keyScaleNumber_eq_div h, Cfg.pmod]
  norm_cast

/-- Settles O1: the six registers, with KSN and INC by their formulas. -/
theorem setfreqWritesFrequencyRegisters : Obligations.SetfreqWritesFrequencyRegisters := by
  unfold Obligations.SetfreqWritesFrequencyRegisters
  intro fnum block multiple d s hf hb hm hd
  rw [exec_eq, applyWith, PhaseGenerator.setfreq_of_legal hf hb hm hd, ← increment_eq hf, ← keyScaleNumber_eq_div hf]
  rfl

theorem applyWith_setfreq_inc {c : Cfg} {fnum block multiple d : Nat} (hf : fnum ≤ 1023) (hb : block ≤ 7)
    (hm : multiple ≤ 15) (hd : d < c.dtRows) (s : State) :
    (applyWith c (.setfreq fnum block multiple d) s).pg.inc = increment c fnum block multiple d := by
  rw [applyWith, PhaseGenerator.setfreq_of_legal hf hb hm hd]
  rfl

/-- Detune index 0 adds nothing, so the increment is one of naturals (R104). -/
theorem increment_of_no_detune {c : Cfg} (hc : c.Wf) {fnum block : Nat} (hf : fnum ≤ 1023) (hb : block ≤ 7)
    (multiple : Nat) :
    increment c fnum block multiple 0 = baseIncrement c fnum block * c.mult2 multiple / 2 % 2 ^ c.phaseBits := by
  rw [increment, doubledIncrement, hc.dtInc_zero _ (PhaseGenerator.keyScaleNumber_le hf hb), add_zero, Cfg.pmod]
  norm_cast

/-- At a whole multiplier there is nothing to round, and the increment is the detuned base times the multiplier where that is
in range (R108, R143). -/
theorem increment_of_multiple {c : Cfg} (hc : c.Wf) {fnum block m d : Nat} (h1 : 1 ≤ m) (h8 : m ≤ 8)
    {detuned : Int} (hdetuned : baseIncrement c fnum block + c.dtInc d (keyScaleNumber fnum block) = detuned)
    (hnonneg : 0 ≤ detuned) (hlt : detuned * m < 2 ^ c.phaseBits) :
    (increment c fnum block m d : Int) = detuned * m := by
  have hhalf : detuned * ((2 * m : Nat) : Int) / 2 = detuned * m := by
    rw [Nat.cast_mul, Nat.cast_two, mul_left_comm]
    exact Int.mul_ediv_cancel_left _ (by decide)
  have hpos : 0 ≤ detuned * m := mul_nonneg hnonneg (Int.natCast_nonneg m)
  rw [increment, doubledIncrement, hdetuned, hc.mult2_eq m h1 h8, hhalf, Cfg.pmod, Nat.cast_pow, Nat.cast_two,
    Int.emod_eq_of_lt hpos hlt, Int.toNat_of_nonneg hpos]

/-- Settles O10: `increment_of_no_detune` and `increment_of_multiple`; at multiple 1 the increment is the base. -/
theorem detuneIsScaledByMultiple : Obligations.DetuneIsScaledByMultiple := by
  unfold Obligations.DetuneIsScaledByMultiple
  intro c fnum block d s hc hf hb hd
  dsimp only
  have hrow : 0 < c.dtRows := Nat.lt_of_lt_of_le (by decide) hc.dtRows_ge
  rw [← keyScaleNumber_eq_div hf, ← baseIncrement_eq]
  have hplain : ∀ m ≤ 15, (applyWith c (.setfreq fnum block m 0) s).pg.inc =
      baseIncrement c fnum block * c.mult2 m / 2 % 2 ^ c.phaseBits := fun m hm => by
    rw [applyWith_setfreq_inc hf hb hm hrow, increment_of_no_detune hc hf hb]
  refine ⟨hplain, fun m h1 h8 hnonneg hlt hbase => ?_, fun hbase => ?_⟩
  · have hm : m ≤ 15 := by omega
    have hdetuned := increment_of_multiple hc (d := d) h1 h8 rfl hnonneg hlt
    have hbare : (increment c fnum block m 0 : Int) = baseIncrement c fnum block * m := by
      refine increment_of_multiple hc h1 h8 ?_ (Int.natCast_nonneg _) (by exact_mod_cast hbase)
      rw [hc.dtInc_zero _ (PhaseGenerator.keyScaleNumber_le hf hb), add_zero]
    rw [applyWith_setfreq_inc hf hb hm hd, applyWith_setfreq_inc hf hb hm hrow, hdetuned, hbare]
    exact ⟨rfl, by ring⟩
  · rw [hplain 0 (by decide), hplain 1 (by decide), hc.mult2_zero, hc.mult2_eq 1 (by decide) (by decide), mul_one,
      Nat.mul_div_cancel _ (by decide), Nat.mod_eq_of_lt hbase, Nat.mod_eq_of_lt (by omega)]

/-! ### Samples of the phase -/

/-- At depth 0 GETPHASE adds INC itself, under every configuration (R139, R140). -/
theorem getphase_of_depth_zero {c : Cfg} (hc : c.Wf) {s : State} (hinc : s.pg.inc < 2 ^ c.phaseBits) {vphase : Nat}
    (hv : vphase ≤ 65535) (fbin : Nat) :
    applyWith c (.getphase 0 vphase fbin) s =
      { s with pg := { s.pg with acc := (s.pg.acc + s.pg.inc) % 2 ^ c.phaseBits }, response := some ⟨.ok, 0, s.pg.acc⟩ } := by
  rw [applyWith, getphase, State.mapPhase, advancePhase, hc.vibInc_depth_zero _ hinc _ hv]
  rfl

/-- Settles O8: depth 0 by `getphase_of_depth_zero`; the meaning of GETPHASE does not mention fbin (R140). -/
theorem getphaseWithoutVibratoAddsIncrement : Obligations.GetphaseWithoutVibratoAddsIncrement := by
  unfold Obligations.GetphaseWithoutVibratoAddsIncrement
  refine ⟨fun vphase fbin s hinc hv => ?_, fun vdepth vphase fbin fbin' s => ?_⟩
  · rw [exec_eq, getphase_of_depth_zero Config.cfg_wf hinc hv]
  · rw [PhaseGenerator.getphaseReturnsPreAdvancePhase, PhaseGenerator.getphaseReturnsPreAdvancePhase]

/-- Settles O9, by induction on the samples: each returns ACC and leaves the next term of the sequence in it. -/
theorem phaseAfterSamplesIsLinear : Obligations.PhaseAfterSamplesIsLinear := by
  unfold Obligations.PhaseAfterSamplesIsLinear
  intro c s calls hc hacc hinc hcalls
  induction calls generalizing s with
  | nil => simp [Nat.mod_eq_of_lt hacc]
  | cons call calls ih =>
    have hsample := getphase_of_depth_zero hc hinc (hcalls call (List.mem_cons_self ..)) call.2
    have hstep : ∀ j, ((s.pg.acc + s.pg.inc) % 2 ^ c.phaseBits + j * s.pg.inc) % 2 ^ c.phaseBits =
        (s.pg.acc + (j + 1) * s.pg.inc) % 2 ^ c.phaseBits := fun j => by
      rw [Nat.mod_add_mod, Nat.add_assoc, Nat.succ_mul, Nat.add_comm (j * s.pg.inc)]
    obtain ⟨hpg, hresponses⟩ := ih (applyWith c (.getphase 0 call.1 call.2) s)
      (by rw [hsample]; exact Nat.mod_lt _ (Nat.two_pow_pos _)) (by rw [hsample]; exact hinc)
      (fun p hp => hcalls p (List.mem_cons_of_mem _ hp))
    rw [hsample] at hpg hresponses
    constructor
    · rw [List.map_cons, applyAll_cons, hsample, hpg, List.length_cons]
      simp only [hstep]
    · rw [List.map_cons, responses_cons, hsample, hresponses, List.length_cons, List.range_succ_eq_map]
      simp [Function.comp_def, hstep, Nat.mod_eq_of_lt hacc]

/-! ### Setting twice -/

/-- A setter issued twice leaves what it left the first time, if writing twice does. -/
theorem completeSetter_twice (o : Option (BitVec 3)) {w : State → State}
    (hw : ∀ s, w (returnOk 0 (w s)) = returnOk 0 (w s)) (s : State) :
    completeSetter o w (completeSetter o w s) = completeSetter o w s := by
  cases o with
  | none => rw [completeSetter_none, completeSetter_none, hw]; rfl
  | some k => rfl

/-- A second key-off finds Idle, or Release with nothing left to change (R171). -/
theorem keyOffEnv_twice (e : EnvRegs) : keyOffEnv (keyOffEnv e) = keyOffEnv e := by
  by_cases h : e.stage = .idle
  · simp [keyOffEnv, h]
  · simp [keyOffEnv, h]

/-- A setter, PGKEYON or EGKEYOFF issued twice is issued once, under every configuration (R144, R186). -/
theorem applyWith_twice (c : Cfg) {i : Instr} (hi : i.op ∈ bootSetters ++ [.pgkeyon, .egkeyoff]) (s : State) :
    applyWith c i (applyWith c i s) = applyWith c i s := by
  cases i with
  | setfreq | setatt | setar | setdr | setsl | setsr | setrr => exact completeSetter_twice _ (fun _ => rfl) s
  | pgkeyon => rfl
  | egkeyoff => exact congrArg (fun e => { egkeyoff s with eg := e }) (keyOffEnv_twice s.eg)
  | getphase | egkeyon | getenv => simp [Instr.op, bootSetters] at hi

/-- Settles O39: `applyWith_twice` at this machine's configuration. -/
theorem settersAreIdempotent : Obligations.SettersAreIdempotent := by
  unfold Obligations.SettersAreIdempotent
  intro i s t hi h
  rw [exec_eq] at h ⊢
  cases h
  rw [applyWith_twice Config.cfg hi]

end Sys2Proof.Setters
end

section
/-! PROOFS. The envelope's stage machine (R170 to R190). What GETENV does in each stage is the stage's own sample
(`advanceEnv_of_attack` and its like), so one GETENV is `exec_getenv` at that sample and any number of them is the iterate of
`advanceEnv` (`applyAll_getenv`). Only EGKEYON, EGKEYOFF and GETENV move STAGE or LEVEL (`stage_level_of_no_event`). -/

namespace Sys2Proof.EnvelopeGenerator

open Sys2Proof Sys2Proof.Machine

/-! ### The sample of each stage -/

section Stages

variable {e : EnvRegs} (c : Cfg)

theorem advanceEnv_of_idle (h : e.stage = .idle) : advanceEnv c e = { e with dampCnt := 0 } := by
  rw [Exceptions.advanceEnv_of_idle h, idleSample, ← h]

theorem advanceEnv_of_damp (h : e.stage = .damp) : advanceEnv c e = dampSample e := by rw [advanceEnv, h]
theorem advanceEnv_of_attack (h : e.stage = .attack) : advanceEnv c e = attackSample c e := by rw [advanceEnv, h]
theorem advanceEnv_of_decay (h : e.stage = .decay) : advanceEnv c e = decaySample c e := by rw [advanceEnv, h]
theorem advanceEnv_of_sustain (h : e.stage = .sustain) : advanceEnv c e = sustainSample c e := by rw [advanceEnv, h]
theorem advanceEnv_of_release (h : e.stage = .release) : advanceEnv c e = releaseSample c e := by rw [advanceEnv, h]

end Stages

/-- GETENV leaves the sample `e` of its stage and returns ENV_OUT of its level (R172, R180). -/
theorem exec_getenv {s : State} {e : EnvRegs} (h : advanceEnv Config.cfg s.eg = e) (amDepth amDam lfoIn : Nat) :
    exec (.getenv amDepth amDam lfoIn) s = .next { s with
      eg := e
      response := some ⟨.ok, 0, min Config.cfg.maxAtt (e.level / 2 ^ Config.cfg.envFracBits + s.eg.kslAtt
        + Config.cfg.amAtt amDepth amDam lfoIn)⟩ } := by
  rw [exec_eq, applyWith, getenv, State.mapEnv, h, envOut, Nat.shiftRight_eq_div_pow]
  rfl

/-- Settles O23: the sample of Idle; at LMAX the output is MAXATT. -/
theorem getenvInIdleHoldsSilence : Obligations.GetenvInIdleHoldsSilence := by
  unfold Obligations.GetenvInIdleHoldsSilence
  intro amDepth amDam lfoIn s hidle
  have hsample := exec_getenv (advanceEnv_of_idle Config.cfg hidle) amDepth amDam lfoIn
  refine ⟨hsample, fun hsilent => ?_⟩
  have hout := Exceptions.envOut_lmax Config.cfg s.eg.kslAtt amDepth amDam lfoIn
  rw [envOut, Nat.shiftRight_eq_div_pow, Cfg.lmax, ← hsilent] at hout
  rw [hsample, hout]

/-- Settles O24: the sample of Damp. -/
theorem getenvInDampCountsDown : Obligations.GetenvInDampCountsDown := by
  unfold Obligations.GetenvInDampCountsDown
  intro amDepth amDam lfoIn s hdamp hcount
  have hlast : s.eg.dampCnt = 1 ↔ s.eg.dampCnt - 1 = 0 := by omega
  rw [exec_getenv (advanceEnv_of_damp Config.cfg hdamp)]
  simp only [hlast]
  rfl

/-- Settles O25: the sample of Attack, whose subtraction of naturals is the clamp at 0. -/
theorem getenvInAttackLowersLevel : Obligations.GetenvInAttackLowersLevel := by
  unfold Obligations.GetenvInAttackLowersLevel
  intro amDepth amDam lfoIn s hattack level' hlevel
  obtain rfl : level' = s.eg.level - Config.cfg.step s.eg.ar.toNat := by omega
  exact exec_getenv (advanceEnv_of_attack Config.cfg hattack) amDepth amDam lfoIn

/-- Settles O26: the sample of Decay. -/
theorem getenvInDecayApproachesSustainLevel : Obligations.GetenvInDecayApproachesSustainLevel := by
  unfold Obligations.GetenvInDecayApproachesSustainLevel
  intro amDepth amDam lfoIn s hdecay
  refine exec_getenv ?_ amDepth amDam lfoIn
  rw [advanceEnv_of_decay Config.cfg hdecay, decaySample, Nat.shiftLeft_eq]

/-- Settles O27: the sample of Sustain. -/
theorem getenvInSustainRaisesLevel : Obligations.GetenvInSustainRaisesLevel := by
  unfold Obligations.GetenvInSustainRaisesLevel
  intro amDepth amDam lfoIn s hsustain
  exact exec_getenv (advanceEnv_of_sustain Config.cfg hsustain) amDepth amDam lfoIn

/-- Settles O28: the sample of Release. -/
theorem getenvInReleaseRaisesLevel : Obligations.GetenvInReleaseRaisesLevel := by
  unfold Obligations.GetenvInReleaseRaisesLevel
  intro amDepth amDam lfoIn s hrelease
  exact exec_getenv (advanceEnv_of_release Config.cfg hrelease) amDepth amDam lfoIn

/-! ### Key events -/

theorem keyOnEnv_of_silent {c : Cfg} {e : EnvRegs} (h : e.level = c.lmax ∨ c.dampTicks = 0) :
    keyOnEnv c e = { e with level := c.lmax, stage := .attack, dampCnt := 0 } := if_pos h

theorem keyOnEnv_of_sounding {c : Cfg} {e : EnvRegs} (h : e.level ≠ c.lmax) (hticks : c.dampTicks ≠ 0) :
    keyOnEnv c e = { e with level := c.lmax, stage := .damp, dampCnt := c.dampTicks } := if_neg (not_or.mpr ⟨h, hticks⟩)

/-- Key-on puts LEVEL to LMAX and the stage to Attack or Damp (R170). -/
theorem keyOnEnv_silences (c : Cfg) (e : EnvRegs) :
    (keyOnEnv c e).level = c.lmax ∧ ((keyOnEnv c e).stage = .attack ∨ (keyOnEnv c e).stage = .damp) := by
  unfold keyOnEnv
  split
  · exact ⟨rfl, .inl rfl⟩
  · exact ⟨rfl, .inr rfl⟩

theorem keyOffEnv_of_idle {e : EnvRegs} (h : e.stage = .idle) : keyOffEnv e = e := if_pos h

theorem keyOffEnv_of_not_idle {e : EnvRegs} (h : e.stage ≠ .idle) :
    keyOffEnv e = { e with stage := .release, dampCnt := 0 } := if_neg h

theorem exec_egkeyon {s : State} {e : EnvRegs} (h : keyOnEnv Config.cfg s.eg = e) :
    exec .egkeyon s = .next { s with eg := e, response := some ⟨.ok, 0, 0⟩ } := by
  rw [exec_eq, applyWith, egkeyon, State.mapEnv, h]
  rfl

theorem exec_egkeyoff {s : State} {e : EnvRegs} (h : keyOffEnv s.eg = e) :
    exec .egkeyoff s = .next { s with eg := e, response := some ⟨.ok, 0, 0⟩ } := by
  rw [exec_eq, applyWith, egkeyoff, State.mapEnv, h]
  rfl

/-- Settles O17: the two cases of key-on, at DAMP_TICKS = 1. -/
theorem egkeyonForcesSilence : Obligations.EgkeyonForcesSilence := by
  unfold Obligations.EgkeyonForcesSilence
  refine fun s => ⟨fun hsilent => ?_, fun hsounding => ?_⟩
  · refine exec_egkeyon ?_
    rw [keyOnEnv_of_silent (.inl hsilent), Cfg.lmax, ← hsilent]
  · exact exec_egkeyon (keyOnEnv_of_sounding hsounding (by simp))

/-- Settles O19: the first key-on leaves the level at LMAX, so the second finds silence. -/
theorem secondKeyOnSkipsDamp : Obligations.SecondKeyOnSkipsDamp := by
  unfold Obligations.SecondKeyOnSkipsDamp
  intro s hsounding
  exact ⟨_, _, exec_egkeyon (keyOnEnv_of_sounding hsounding (by simp)), exec_egkeyon (keyOnEnv_of_silent (.inl rfl)),
    rfl, rfl, rfl, rfl, rfl⟩

/-- Settles O20: the two cases of key-off. -/
theorem egkeyoffReleasesUnlessIdle : Obligations.EgkeyoffReleasesUnlessIdle := by
  unfold Obligations.EgkeyoffReleasesUnlessIdle
  exact fun s => ⟨fun hidle => exec_egkeyoff (keyOffEnv_of_idle hidle),
    fun hstage => exec_egkeyoff (keyOffEnv_of_not_idle hstage)⟩

/-- Settles O21: a key-off outside Idle, then the sample of Release. -/
theorem keyOffReleasesFromHeldLevel : Obligations.KeyOffReleasesFromHeldLevel := by
  unfold Obligations.KeyOffReleasesFromHeldLevel
  intro amDepth amDam lfoIn s hstage
  have hnotIdle : s.eg.stage ≠ .idle := by rcases hstage with h | h | h <;> simp [h]
  exact ⟨_, _, exec_egkeyoff (keyOffEnv_of_not_idle hnotIdle), rfl, rfl,
    getenvInReleaseRaisesLevel amDepth amDam lfoIn _ rfl, rfl⟩

/-- Settles O22: KEYON is PGKEYON, then EGKEYON (R87). -/
theorem keyonResetsPhaseAndLevel : Obligations.KeyonResetsPhaseAndLevel := by
  unfold Obligations.KeyonResetsPhaseAndLevel
  exact fun c s => ⟨rfl, keyOnEnv_silences c s.eg⟩

/-! ### Which commands move STAGE and LEVEL -/

/-- A command that is no key event of the envelope and no GETENV keeps STAGE and LEVEL (R169, R20). -/
theorem stage_level_of_no_event (c : Cfg) {i : Instr} (hon : i ≠ .egkeyon) (hoff : i ≠ .egkeyoff) (hget : i.op ≠ .getenv)
    (s : State) : (applyWith c i s).eg.stage = s.eg.stage ∧ (applyWith c i s).eg.level = s.eg.level := by
  by_cases hset : i.op ∈ bootSetters
  · obtain ⟨hstage, hlevel, _, _⟩ := setter_keepsAccumulated c hset s
    exact ⟨hstage, hlevel⟩
  · cases i with
    | pgkeyon | getphase => exact ⟨rfl, rfl⟩
    | egkeyon => exact absurd rfl hon
    | egkeyoff => exact absurd rfl hoff
    | getenv => exact absurd rfl hget
    | setfreq | setatt | setar | setdr | setsl | setsr | setrr => exact absurd (by simp [Instr.op, bootSetters]) hset

/-- A GETENV that changes the stage goes to the stage's successor, under its condition (R173 to R178, R181). -/
theorem stage_change_of_advanceEnv {c : Cfg} {e : EnvRegs} (h : (advanceEnv c e).stage ≠ e.stage) :
    e.stage = .damp ∧ (advanceEnv c e).stage = .attack ∧ (advanceEnv c e).dampCnt = 0 ∨
      e.stage = .attack ∧ (advanceEnv c e).stage = .decay ∧ (advanceEnv c e).level = 0 ∨
      e.stage = .decay ∧ (advanceEnv c e).stage = .sustain ∧ e.sl * 2 ^ c.envFracBits ≤ (advanceEnv c e).level ∨
      e.stage = .sustain ∧ (advanceEnv c e).stage = .idle ∧ (advanceEnv c e).level = c.lmax ∨
      e.stage = .release ∧ (advanceEnv c e).stage = .idle ∧ (advanceEnv c e).level = c.lmax := by
  cases hstage : e.stage with
  | idle => simp [advanceEnv_of_idle c hstage] at h
  | damp =>
    rw [advanceEnv_of_damp c hstage, hstage] at h
    rw [advanceEnv_of_damp c hstage]
    have hend := (ite_ne_right_iff.mp h).1
    exact .inl ⟨rfl, if_pos hend, hend⟩
  | attack =>
    rw [advanceEnv_of_attack c hstage, hstage] at h
    rw [advanceEnv_of_attack c hstage]
    have hend := (ite_ne_right_iff.mp h).1
    exact .inr (.inl ⟨rfl, if_pos hend, hend⟩)
  | decay =>
    rw [advanceEnv_of_decay c hstage, hstage] at h
    rw [advanceEnv_of_decay c hstage]
    have hend := (ite_ne_right_iff.mp h).1
    exact .inr (.inr (.inl ⟨rfl, if_pos hend, Nat.shiftLeft_eq e.sl _ ▸ hend⟩))
  | sustain =>
    rw [advanceEnv_of_sustain c hstage, hstage] at h
    rw [advanceEnv_of_sustain c hstage]
    have hend := (ite_ne_right_iff.mp h).1
    exact .inr (.inr (.inr (.inl ⟨rfl, if_pos hend, hend⟩)))
  | release =>
    rw [advanceEnv_of_release c hstage, hstage] at h
    rw [advanceEnv_of_release c hstage]
    have hend := (ite_ne_right_iff.mp h).1
    exact .inr (.inr (.inr (.inr ⟨rfl, if_pos hend, hend⟩)))

/-- GETENV lowers the level in Attack only (R183). -/
theorem level_advanceEnv {c : Cfg} {e : EnvRegs} (hlevel : e.level ≤ c.lmax) :
    (e.stage = .attack → (advanceEnv c e).level ≤ e.level) ∧ (e.stage ≠ .attack → e.level ≤ (advanceEnv c e).level) := by
  cases hstage : e.stage with
  | idle => simp [advanceEnv_of_idle c hstage]
  | damp => simp [advanceEnv_of_damp c hstage, dampSample]
  | attack => simp [advanceEnv_of_attack c hstage, attackSample]
  | decay => simp [advanceEnv_of_decay c hstage, decaySample]
  | sustain => simp [advanceEnv_of_sustain c hstage, sustainSample, hlevel]
  | release => simp [advanceEnv_of_release c hstage, releaseSample, hlevel]

/-- Settles O29: only the key events and GETENV change the stage, and each of the three along its own edges. -/
theorem stageChangesOnlyAlongTable : Obligations.StageChangesOnlyAlongTable := by
  unfold Obligations.StageChangesOnlyAlongTable
  intro c i s hlevel
  dsimp only
  intro hchange
  cases i with
  | egkeyon =>
    by_cases hsilent : s.eg.level = c.lmax ∨ c.dampTicks = 0
    · refine .inl ⟨rfl, ?_, hsilent⟩
      exact congrArg EnvRegs.stage (keyOnEnv_of_silent hsilent)
    · obtain ⟨hsounding, hticks⟩ := not_or.mp hsilent
      refine .inr (.inl ⟨rfl, ?_, lt_of_le_of_ne hlevel hsounding, Nat.one_le_iff_ne_zero.mpr hticks⟩)
      exact congrArg EnvRegs.stage (keyOnEnv_of_sounding hsounding hticks)
  | egkeyoff =>
    have hoff : (applyWith c .egkeyoff s).eg = keyOffEnv s.eg := rfl
    rw [hoff] at hchange ⊢
    refine .inr (.inr (.inl ?_))
    cases hstage : s.eg.stage <;> simp [keyOffEnv, hstage] at hchange ⊢
  | getenv amDepth amDam lfoIn =>
    exact .inr (.inr (.inr ⟨⟨amDepth, amDam, lfoIn, rfl⟩, stage_change_of_advanceEnv hchange⟩))
  | setfreq | setatt | setar | setdr | setsl | setsr | setrr | pgkeyon | getphase =>
    exact absurd (stage_level_of_no_event c (by simp) (by simp) (by simp [Instr.op]) s).1 hchange

/-- Settles O30: `level_advanceEnv` for GETENV; key-on goes to the top, key-off and the others keep the level. -/
theorem levelIsMonotoneWithinStage : Obligations.LevelIsMonotoneWithinStage := by
  unfold Obligations.LevelIsMonotoneWithinStage
  intro c i s hlevel
  dsimp only
  have hkeep : i.op ≠ .getenv → i.op ≠ .egkeyon → (applyWith c i s).eg.level = s.eg.level := by
    intro hget hon
    by_cases hoff : i = .egkeyoff
    · subst hoff
      show (keyOffEnv s.eg).level = _
      unfold keyOffEnv
      split <;> rfl
    · exact (stage_level_of_no_event c (fun h => hon (congrArg Instr.op h)) hoff hget s).2
  obtain ⟨hattack, hother⟩ := level_advanceEnv hlevel
  refine ⟨fun hop => ?_, fun hop => ?_, fun hop => ?_, hkeep⟩
  · cases i <;> cases hop
    exact hattack
  · cases i <;> cases hop
    exact hother
  · cases i <;> cases hop
    exact hlevel.trans (keyOnEnv_silences c s.eg).1.ge

/-! ### Any number of samples -/

/-- Any number of GETENV calls advance the envelope registers as often, whatever their operands. -/
theorem applyAll_getenv (c : Cfg) (calls : List (Nat × Nat × Nat)) (s : State) :
    (applyAll c (calls.map fun q => .getenv q.1 q.2.1 q.2.2) s).eg = (advanceEnv c)^[calls.length] s.eg := by
  induction calls generalizing s with
  | nil => rfl
  | cons q calls ih => exact ih _

/-- Damp counts down to Attack and holds the level (R174). -/
theorem iterate_damp (c : Cfg) (e : EnvRegs) {n d : Nat} (hd : d ≠ 0) (hn : n ≤ d) :
    (advanceEnv c)^[n] { e with stage := .damp, dampCnt := d } =
      { e with stage := if n = d then .attack else .damp, dampCnt := d - n } := by
  induction n with
  | zero => simp [hd.symm]
  | succ n ih =>
    have hlast : d - (n + 1) = 0 ↔ n + 1 = d := by omega
    rw [Function.iterate_succ_apply', ih (by omega), if_neg (by omega), advanceEnv_of_damp c rfl, dampSample, Nat.sub_sub]
    simp only [hlast]

/-- Settles O18: key-on, then `iterate_damp`; without damp ticks the key-on goes to Attack itself. -/
theorem dampLastsDampTicksSamples : Obligations.DampLastsDampTicksSamples := by
  unfold Obligations.DampLastsDampTicksSamples
  intro c s calls hsounding hlen
  have hkeyOn : (applyWith c .egkeyon s).eg = keyOnEnv c s.eg := rfl
  rw [applyAll_cons, applyAll_getenv, hkeyOn]
  by_cases hticks : c.dampTicks = 0
  · have hnone : calls.length = 0 := by omega
    rw [keyOnEnv_of_silent (.inr hticks), hnone, hticks]
    rfl
  · rw [keyOnEnv_of_sounding hsounding hticks]
    exact iterate_damp c { s.eg with level := c.lmax } hticks hlen

/-- Before sample `max 1 (ceil (distance / p))` the distance is not used up, if there is any sample to take. -/
theorem mul_lt_of_lt_last {n p distance : Nat} (hp : 0 < p) (h : n < max 1 ((distance + p - 1) / p)) :
    n = 0 ∨ n * p < distance := by
  rw [← Nat.ceilDiv_eq_add_pred_div, lt_max_iff, Nat.lt_one_iff] at h
  refine h.imp id fun hlt => ?_
  rwa [← not_le, ceilDiv_le_iff_le_mul hp, not_le, Nat.mul_comm] at hlt

/-- The last sample is a successor, and by then the distance is used up. -/
theorem exists_last {p distance : Nat} (hp : 0 < p) :
    ∃ m, max 1 ((distance + p - 1) / p) = m + 1 ∧ distance ≤ (m + 1) * p := by
  obtain ⟨m, hm⟩ := Nat.exists_eq_add_of_le' (le_max_left 1 ((distance + p - 1) / p))
  refine ⟨m, hm, ?_⟩
  rw [← hm, Nat.mul_comm, ← ceilDiv_le_iff_le_mul hp, Nat.ceilDiv_eq_add_pred_div]
  exact le_max_right _ _

/-- While the level lasts, Attack goes on and lowers it by one step a sample (R175). -/
theorem iterate_attack (c : Cfg) {e : EnvRegs} (hstage : e.stage = .attack) {n : Nat}
    (hn : n = 0 ∨ n * c.step e.ar.toNat < e.level) :
    ∃ d, (advanceEnv c)^[n] e = { e with stage := .attack, level := e.level - n * c.step e.ar.toNat, dampCnt := d } := by
  induction n with
  | zero => exact ⟨e.dampCnt, by simp [← hstage]⟩
  | succ n ih =>
    have hlt : n * c.step e.ar.toNat + c.step e.ar.toNat < e.level := by
      rw [← Nat.succ_mul]
      exact hn.resolve_left n.succ_ne_zero
    obtain ⟨d, hd⟩ := ih (.inr (by omega))
    rw [Function.iterate_succ_apply', hd, advanceEnv_of_attack c rfl, attackSample, Nat.succ_mul, ← Nat.sub_sub]
    dsimp only
    rw [if_neg (by omega)]
    exact ⟨0, rfl⟩

/-- Settles O31: `iterate_attack` up to the last sample, which finds no more than one step left. -/
theorem attackReachesFullLoudness : Obligations.AttackReachesFullLoudness := by
  unfold Obligations.AttackReachesFullLoudness
  intro c s calls hstage hp
  dsimp only
  rw [applyAll_getenv]
  constructor
  · intro hlt
    obtain ⟨d, hd⟩ := iterate_attack c hstage (mul_lt_of_lt_last hp hlt)
    rw [hd]
    exact ⟨rfl, rfl⟩
  · intro hlast
    obtain ⟨m, hm, hused⟩ := exists_last (distance := s.eg.level) hp
    obtain ⟨d, hd⟩ := iterate_attack c hstage (mul_lt_of_lt_last hp (n := m) (by rw [hm]; exact m.lt_succ_self))
    have hzero : s.eg.level - m * c.step s.eg.ar.toNat - c.step s.eg.ar.toNat = 0 := by
      rw [Nat.sub_sub, ← Nat.succ_mul, Nat.sub_eq_zero_iff_le]
      exact hused
    rw [hlast, hm, Function.iterate_succ_apply', hd, advanceEnv_of_attack c rfl, attackSample]
    exact ⟨if_pos hzero, hzero⟩

/-- While silence is not reached, Release goes on and raises the level by one step a sample (R178). -/
theorem iterate_release (c : Cfg) {e : EnvRegs} (hstage : e.stage = .release) {n : Nat}
    (hn : n = 0 ∨ n * c.step e.rr.toNat < c.lmax - e.level) :
    ∃ d, (advanceEnv c)^[n] e = { e with stage := .release, level := e.level + n * c.step e.rr.toNat, dampCnt := d } := by
  induction n with
  | zero => exact ⟨e.dampCnt, by simp [← hstage]⟩
  | succ n ih =>
    have hlt : n * c.step e.rr.toNat + c.step e.rr.toNat < c.lmax - e.level := by
      rw [← Nat.succ_mul]
      exact hn.resolve_left n.succ_ne_zero
    obtain ⟨d, hd⟩ := ih (.inr (by omega))
    rw [Function.iterate_succ_apply', hd, advanceEnv_of_release c rfl, releaseSample, Nat.succ_mul, ← Nat.add_assoc]
    dsimp only
    rw [Nat.min_eq_left (by omega), if_neg (by omega)]
    exact ⟨0, rfl⟩

/-- Idle stays as it is (R173). -/
theorem iterate_idle (c : Cfg) {e : EnvRegs} (hstage : e.stage = .idle) (n : Nat) :
    ((advanceEnv c)^[n] e).stage = .idle ∧ ((advanceEnv c)^[n] e).level = e.level := by
  induction n with
  | zero => exact ⟨hstage, rfl⟩
  | succ n ih =>
    obtain ⟨hidle, hlevel⟩ := ih
    rw [Function.iterate_succ_apply', advanceEnv_of_idle c hidle]
    exact ⟨hidle, hlevel⟩

/-- Settles O32: `iterate_release` up to the last sample, which reaches silence, and `iterate_idle` from there on. -/
theorem releaseReachesIdle : Obligations.ReleaseReachesIdle := by
  unfold Obligations.ReleaseReachesIdle
  intro c s calls hstage hp hlevel
  dsimp only
  rw [applyAll_getenv, ← Cfg.lmax]
  rw [← Cfg.lmax] at hlevel
  constructor
  · intro hlt
    obtain ⟨d, hd⟩ := iterate_release c hstage (mul_lt_of_lt_last hp hlt)
    rw [hd]
    exact ⟨rfl, rfl⟩
  · intro hlast
    obtain ⟨m, hm, hused⟩ := exists_last (distance := c.lmax - s.eg.level) hp
    obtain ⟨d, hd⟩ := iterate_release c hstage (mul_lt_of_lt_last hp (n := m) (by rw [hm]; exact m.lt_succ_self))
    have hsilent : min (s.eg.level + m * c.step s.eg.rr.toNat + c.step s.eg.rr.toNat) c.lmax = c.lmax := by
      rw [Nat.succ_mul] at hused
      omega
    have hidle : (advanceEnv c)^[m + 1] s.eg = { s.eg with level := c.lmax, stage := .idle, dampCnt := 0 } := by
      rw [Function.iterate_succ_apply', hd, advanceEnv_of_release c rfl, releaseSample]
      dsimp only
      rw [hsilent, if_pos rfl]
    obtain ⟨rest, hrest⟩ := Nat.exists_eq_add_of_le' (hm ▸ hlast)
    rw [hrest, Function.iterate_add_apply, hidle]
    exact iterate_idle c rfl rest

/-- A stage whose actual rate is 0 and which is not where it would end (R188). -/
def HoldsAtZeroRate (c : Cfg) (e : EnvRegs) : Prop :=
  e.stage = .attack ∧ e.ar = 0 ∧ 0 < e.level ∨
    e.stage = .decay ∧ e.dr = 0 ∧ e.level < e.sl * 2 ^ c.envFracBits ∨
    e.stage = .sustain ∧ e.sr = 0 ∧ e.level < c.lmax ∨
    e.stage = .release ∧ e.rr = 0 ∧ e.level < c.lmax

/-- At rate 0 the step is 0, so a sample leaves the stage and the level (R112). -/
theorem advanceEnv_of_zero_rate {c : Cfg} (hc : c.Wf) {e : EnvRegs} (h : HoldsAtZeroRate c e) :
    advanceEnv c e = { e with dampCnt := 0 } := by
  have hstep : c.step (0 : BitVec 6).toNat = 0 := hc.step_zero
  rcases h with ⟨hstage, hrate, hlevel⟩ | ⟨hstage, hrate, hlevel⟩ | ⟨hstage, hrate, hlevel⟩ | ⟨hstage, hrate, hlevel⟩
  · rw [advanceEnv_of_attack c hstage, attackSample, hrate, hstep, Nat.sub_zero]
    rw [if_neg hlevel.ne', hstage]
  · rw [advanceEnv_of_decay c hstage, decaySample, hrate, hstep, Nat.add_zero, Nat.shiftLeft_eq,
      Nat.min_eq_left hlevel.le, Nat.max_self]
    rw [if_neg hlevel.not_ge, hstage]
  · rw [advanceEnv_of_sustain c hstage, sustainSample, hrate, hstep, Nat.add_zero, Nat.min_eq_left hlevel.le]
    rw [if_neg hlevel.ne, hstage]
  · rw [advanceEnv_of_release c hstage, releaseSample, hrate, hstep, Nat.add_zero, Nat.min_eq_left hlevel.le]
    rw [if_neg hlevel.ne, hstage]

/-- Settles O33, by induction on the samples: each leaves a state that holds as the one before did. -/
theorem zeroRateHoldsForEver : Obligations.ZeroRateHoldsForEver := by
  unfold Obligations.ZeroRateHoldsForEver
  intro c s calls hc h
  dsimp only
  rw [applyAll_getenv]
  have hiterate : ∀ (n : Nat) (e : EnvRegs), HoldsAtZeroRate c e →
      ((advanceEnv c)^[n] e).stage = e.stage ∧ ((advanceEnv c)^[n] e).level = e.level := by
    intro n
    induction n with
    | zero => exact fun e _ => ⟨rfl, rfl⟩
    | succ n ih =>
      intro e he
      rw [Function.iterate_succ_apply, advanceEnv_of_zero_rate hc he]
      exact ih { e with dampCnt := 0 } he
  exact hiterate calls.length s.eg h

end Sys2Proof.EnvelopeGenerator
end

section
/-! PROOFS. The access table (R30) and the instances (R63, R225). What a command writes is said once for each shared write
(`keyOnEnv_frame` and its like); what it reads is what its write is computed from. -/

namespace Sys2Proof.Access

open Sys2Proof Sys2Proof.Machine

/-! ### Writes -/

/-- Key-on writes STAGE, LEVEL and DAMPCNT only (R170). -/
theorem keyOnEnv_frame (c : Cfg) (e : EnvRegs) :
    ∃ st l d, keyOnEnv c e = { e with stage := st, level := l, dampCnt := d } := by
  unfold keyOnEnv
  split <;> exact ⟨_, _, _, rfl⟩

/-- Key-off writes STAGE and DAMPCNT only (R171). -/
theorem keyOffEnv_frame (e : EnvRegs) : ∃ st d, keyOffEnv e = { e with stage := st, dampCnt := d } := by
  unfold keyOffEnv
  split <;> exact ⟨_, _, rfl⟩

/-- A sample writes STAGE, LEVEL and DAMPCNT only (R172). -/
theorem advanceEnv_frame (c : Cfg) (e : EnvRegs) :
    ∃ st l d, advanceEnv c e = { e with stage := st, level := l, dampCnt := d } := by
  unfold advanceEnv
  split <;> exact ⟨_, _, _, rfl⟩

/-- What a register holds does not depend on the response. -/
@[simp] theorem read_returnOk (r : Reg) (v : Nat) (s : State) : r.read (returnOk v s) = r.read s := by cases r <;> rfl

@[simp] theorem read_raise (r : Reg) (k : BitVec 3) (s : State) : r.read (raiseInvalidParameter k s) = r.read s := by
  cases r <;> rfl

/-- A setter leaves a register that its write leaves, whatever its check finds. -/
theorem read_completeSetter {r : Reg} (o : Option (BitVec 3)) {w : State → State} {s : State}
    (hw : r.read (w s) = r.read s) : r.read (completeSetter o w s) = r.read s := by
  rcases completeSetter_cases o w s with ⟨k, _, hraise⟩ | ⟨_, hwrite⟩
  · rw [hraise, read_raise]
  · rw [hwrite, read_returnOk, hw]

/-- Settles O36: for each command, the registers that its write leaves. -/
theorem commandsWriteOnlyTheirRegisters : Obligations.CommandsWriteOnlyTheirRegisters := by
  unfold Obligations.CommandsWriteOnlyTheirRegisters
  intro c i s r hr
  cases i with
  | setfreq | setatt | setar | setdr | setsl | setsr | setrr =>
    refine read_completeSetter _ ?_
    cases r <;> simp [Instr.op, writes] at hr <;> rfl
  | pgkeyon | getphase => cases r <;> simp [Instr.op, writes] at hr <;> rfl
  | egkeyon =>
    obtain ⟨st, l, d, hwrite⟩ := keyOnEnv_frame c s.eg
    rw [applyWith, egkeyon, State.mapEnv, hwrite]
    cases r <;> simp [Instr.op, writes] at hr <;> rfl
  | egkeyoff =>
    obtain ⟨st, d, hwrite⟩ := keyOffEnv_frame s.eg
    rw [applyWith, egkeyoff, State.mapEnv, hwrite]
    cases r <;> simp [Instr.op, writes] at hr <;> rfl
  | getenv amDepth amDam lfoIn =>
    obtain ⟨st, l, d, hwrite⟩ := advanceEnv_frame c s.eg
    rw [applyWith, getenv, State.mapEnv, hwrite]
    cases r <;> simp [Instr.op, writes] at hr <;> rfl

/-! ### Reads -/

/-- The code of a stage tells the stage (R26). -/
theorem stage_eq_of_code_eq {a b : Stage} (h : a.code.toNat = b.code.toNat) : a = b := by
  revert h
  cases a <;> cases b <;> decide

/-- The registers GETENV reads are all the envelope generator's. -/
theorem eg_eq_of_reads_getenv {s t : State} (h : ∀ r ∈ reads .getenv, r.read s = r.read t) : s.eg = t.eg := by
  simp only [reads, List.forall_mem_cons, Reg.read] at h
  obtain ⟨har, hdr, hsr, hrr, hsl, hkslAtt, hstage, hlevel, hdampCnt, _⟩ := h
  show (⟨s.eg.stage, s.eg.level, s.eg.dampCnt, s.eg.ar, s.eg.dr, s.eg.sr, s.eg.rr, s.eg.sl, s.eg.kslAtt⟩ : EnvRegs) =
    ⟨t.eg.stage, t.eg.level, t.eg.dampCnt, t.eg.ar, t.eg.dr, t.eg.sr, t.eg.rr, t.eg.sl, t.eg.kslAtt⟩
  rw [stage_eq_of_code_eq hstage, hlevel, hdampCnt, BitVec.eq_of_toNat_eq har, BitVec.eq_of_toNat_eq hdr,
    BitVec.eq_of_toNat_eq hsr, BitVec.eq_of_toNat_eq hrr, hsl, hkslAtt]

/-- What key-on writes depends on LEVEL only (R170). -/
theorem keyOnEnv_reads_level (c : Cfg) {e e' : EnvRegs} (h : e.level = e'.level) :
    (keyOnEnv c e).stage = (keyOnEnv c e').stage ∧ (keyOnEnv c e).level = (keyOnEnv c e').level ∧
      (keyOnEnv c e).dampCnt = (keyOnEnv c e').dampCnt := by
  unfold keyOnEnv
  rw [h]
  split <;> exact ⟨rfl, rfl, rfl⟩

/-- What key-off writes depends on STAGE only, but for the DAMPCNT it leaves alone in Idle (R171). -/
theorem keyOffEnv_reads_stage {e e' : EnvRegs} (h : e.stage = e'.stage) (hidle : e.stage = .idle → e.dampCnt = e'.dampCnt) :
    (keyOffEnv e).stage = (keyOffEnv e').stage ∧ (keyOffEnv e).dampCnt = (keyOffEnv e').dampCnt := by
  by_cases hstage : e.stage = .idle
  · rw [EnvelopeGenerator.keyOffEnv_of_idle hstage, EnvelopeGenerator.keyOffEnv_of_idle (h ▸ hstage)]
    exact ⟨h, hidle hstage⟩
  · rw [EnvelopeGenerator.keyOffEnv_of_not_idle hstage, EnvelopeGenerator.keyOffEnv_of_not_idle (h ▸ hstage)]
    exact ⟨rfl, rfl⟩

/-- A setter's response comes from its check alone, and what it writes on completion from its write. -/
theorem completeSetter_reads {o : Option (BitVec 3)} {w : State → State} {rs : List Reg} {s t : State}
    (hw : ∀ r ∈ rs, r.read (w s) = r.read (w t)) :
    (completeSetter o w s).response = (completeSetter o w t).response ∧
      (o.isNone = true → ∀ r ∈ rs, r.read (completeSetter o w s) = r.read (completeSetter o w t)) := by
  cases o with
  | none => exact ⟨rfl, fun _ r hr => by rw [completeSetter_none, completeSetter_none, read_returnOk, read_returnOk, hw r hr]⟩
  | some k => exact ⟨rfl, fun h => by cases h⟩

/-- Settles O37: for each command, what its response and its write are computed from. -/
theorem commandsReadOnlyTheirRegisters : Obligations.CommandsReadOnlyTheirRegisters := by
  unfold Obligations.CommandsReadOnlyTheirRegisters
  intro c i s t hs ht hreads
  cases i with
  | setfreq | setatt | setar | setdr | setsl | setsr | setrr =>
    refine completeSetter_reads fun r hr => ?_
    cases r <;> simp [Instr.op, writes] at hr <;> rfl
  | pgkeyon =>
    refine ⟨rfl, fun _ r hr => ?_⟩
    obtain rfl := List.mem_singleton.mp hr
    rfl
  | getphase vdepth vphase fbin =>
    have hinc : s.pg.inc = t.pg.inc := hreads .inc (by simp [Instr.op, reads])
    have hacc : s.pg.acc = t.pg.acc := hreads .acc (by simp [Instr.op, reads])
    refine ⟨by simp [applyWith, getphase, hacc], fun _ r hr => ?_⟩
    obtain rfl := List.mem_singleton.mp hr
    simp [applyWith, getphase, Reg.read, advancePhase, hinc, hacc]
  | egkeyon =>
    obtain ⟨hstage, hlevel, hdampCnt⟩ := keyOnEnv_reads_level c (hreads .level (by decide))
    refine ⟨rfl, fun _ => ?_⟩
    simp [Instr.op, writes, applyWith, egkeyon, Reg.read, hstage, hlevel, hdampCnt]
  | egkeyoff =>
    have hcode : s.eg.stage = t.eg.stage := stage_eq_of_code_eq (hreads .stage (by decide))
    have hidle : s.eg.stage = .idle → s.eg.dampCnt = t.eg.dampCnt := fun h => by
      rw [hs.damp_only (by simp [h]), ht.damp_only (by simp [← hcode, h])]
    obtain ⟨hstage, hdampCnt⟩ := keyOffEnv_reads_stage hcode hidle
    refine ⟨rfl, fun _ => ?_⟩
    simp [Instr.op, writes, applyWith, egkeyoff, Reg.read, hstage, hdampCnt]
  | getenv amDepth amDam lfoIn =>
    obtain ⟨heg, hresponse⟩ := Independence.applyWith_congr_eg (c := c) (i := .getenv amDepth amDam lfoIn) rfl
      (eg_eq_of_reads_getenv hreads)
    refine ⟨hresponse, fun _ => ?_⟩
    simp [Instr.op, writes, Reg.read, heg]

/-! ### Instances -/

/-- A command given to one of the instances changes no other (R63). -/
theorem command_getElem? (c : Cfg) (k j : Nat) (i : Instr) (v : Voice) :
    (Voice.command c k i v)[j]? = v[j]?.map (applyAll c (if k = j then [i] else [])) := by
  rw [Voice.command, List.getElem?_modify]
  by_cases h : k = j
  · simp only [if_pos h]
    rfl
  · simp only [if_neg h]
    rfl

theorem commandsFor_cons (k j : Nat) (i : Instr) (schedule : List (Nat × Instr)) :
    commandsFor j ((k, i) :: schedule) = (if k = j then [i] else []) ++ commandsFor j schedule := by
  by_cases h : k = j <;> simp [commandsFor, h]

/-- Settles O40, by induction on the schedule: each entry reaches one of the instances only. -/
theorem instancesAreIndependent : Obligations.InstancesAreIndependent := by
  unfold Obligations.InstancesAreIndependent
  intro c schedule v k
  induction schedule generalizing v with
  | nil => exact (Option.map_id' ..).symm
  | cons entry schedule ih =>
    obtain ⟨j, i⟩ := entry
    rw [Voice.run, ih, command_getElem?, Option.map_map, commandsFor_cons]
    refine congrFun (congrArg Option.map (funext fun s => ?_)) _
    exact (applyAll_append c _ _ s).symm

end Sys2Proof.Access
end

section
/-! PROOFS. Reset, steps and the invariants (R31, R32, R58, R240, R255). `Inv` is a part about each group of registers and one
about the response (`inv_iff`), so a command has only its own generator's part and the response's to keep: `phaseInv_applyWith`,
`envInv_applyWith` and `responseInv_applyWith`. A step keeps the whole, and runs follow by induction. -/

namespace Sys2Proof.Invariants

open Sys2Proof Sys2Proof.Machine

/-! ### The parts of the invariant -/

/-- The part of `Inv` about the phase generator's registers. -/
structure PhaseInv (c : Cfg) (p : PhaseRegs) : Prop where
  acc_lt : p.acc < c.pmod
  inc_lt : p.inc < c.pmod
  dt_lt : p.dt < c.dtRows
  ksn_eq : p.ksn.toNat = 2 * p.block.toNat + p.fnum.toNat / 512
  inc_eq : p.inc = increment c p.fnum.toNat p.block.toNat p.mult.toNat p.dt

/-- The part of `Inv` about the envelope generator's registers. -/
structure EnvInv (c : Cfg) (e : EnvRegs) : Prop where
  level_le : e.level ≤ c.lmax
  idle_silent : e.stage = .idle → e.level = c.lmax
  damp_silent : e.stage = .damp → e.level = c.lmax
  damp_counts : e.stage = .damp → 1 ≤ e.dampCnt ∧ e.dampCnt ≤ c.dampTicks
  damp_only : e.stage ≠ .damp → e.dampCnt = 0
  sl_le : e.sl ≤ c.maxAtt
  kslAtt_mem : ∃ ksl ≤ 3, ∃ block ≤ 7, ∃ fnum ≤ 1023, e.kslAtt = c.kslAttFn ksl block fnum

/-- The part of `Inv` about a response. -/
structure ResponseInv (c : Cfg) (r : Response) : Prop where
  data_lt : r.data < 2 ^ dataBits c
  ok_info : r.status = .ok → r.info = 0
  invalid : r.status = .invalidParameter → 1 ≤ r.info.toNat ∧ r.info.toNat ≤ 4 ∧ r.data = 0

theorem inv_iff (c : Cfg) (s : State) :
    Inv c s ↔ PhaseInv c s.pg ∧ EnvInv c s.eg ∧ ∀ r, s.response = some r → ResponseInv c r := by
  constructor
  · intro h
    exact ⟨⟨h.acc_lt, h.inc_lt, h.dt_lt, h.ksn_eq, h.inc_eq⟩,
      ⟨h.level_le, h.idle_silent, h.damp_silent, h.damp_counts, h.damp_only, h.sl_le, h.kslAtt_mem⟩,
      fun r hr => ⟨h.response_data r hr, h.response_ok r hr, h.response_invalid r hr⟩⟩
  · rintro ⟨hpg, heg, hresponse⟩
    exact {
      acc_lt := hpg.acc_lt, inc_lt := hpg.inc_lt, dt_lt := hpg.dt_lt, ksn_eq := hpg.ksn_eq, inc_eq := hpg.inc_eq
      level_le := heg.level_le, idle_silent := heg.idle_silent, damp_silent := heg.damp_silent
      damp_counts := heg.damp_counts, damp_only := heg.damp_only, sl_le := heg.sl_le, kslAtt_mem := heg.kslAtt_mem
      response_data := fun r hr => (hresponse r hr).data_lt
      response_ok := fun r hr => (hresponse r hr).ok_info
      response_invalid := fun r hr => (hresponse r hr).invalid }

/-! ### Responses -/

theorem responseInv_okWith {c : Cfg} {v : Nat} (h : v < 2 ^ dataBits c) : ResponseInv c (Response.okWith v) :=
  ⟨h, fun _ => rfl, fun h => by cases h⟩

theorem responseInv_invalid (c : Cfg) {k : BitVec 3} (h1 : 1 ≤ k.toNat) (h4 : k.toNat ≤ 4) :
    ResponseInv c (Response.invalid k) :=
  ⟨Nat.two_pow_pos _, fun h => by (cases h), fun _ => ⟨h1, h4, rfl⟩⟩

/-- A phase fits the response's data field (R80). -/
theorem lt_dataBits_of_lt_pmod {c : Cfg} {v : Nat} (h : v < c.pmod) : v < 2 ^ dataBits c :=
  h.trans_le (Nat.pow_le_pow_right Nat.two_pos (le_max_left _ _))

/-- An attenuation fits the response's data field (R80). -/
theorem lt_dataBits_of_le_maxAtt {c : Cfg} {v : Nat} (h : v ≤ c.maxAtt) : v < 2 ^ dataBits c :=
  (h.trans_lt Nat.lt_log2_self).trans_le (Nat.pow_le_pow_right Nat.two_pos (le_max_right _ _))

/-- A setter's response is OK without data, or the position its check reports (R81, R211). -/
theorem responseInv_completeSetter (c : Cfg) {o : Option (BitVec 3)} (ho : ∀ k, o = some k → 1 ≤ k.toNat ∧ k.toNat ≤ 4)
    (w : State → State) (s : State) : ∀ r, (completeSetter o w s).response = some r → ResponseInv c r := by
  rcases completeSetter_cases o w s with ⟨k, hk, hraise⟩ | ⟨_, hwrite⟩
  · rw [hraise]
    rintro _ ⟨⟩
    exact responseInv_invalid c (ho k hk).1 (ho k hk).2
  · rw [hwrite]
    rintro _ ⟨⟩
    exact responseInv_okWith (Nat.two_pow_pos _)

/-- Every command's response is as R80 and R81 say, if the phase held is in range. -/
theorem responseInv_applyWith {c : Cfg} {s : State} (hpg : PhaseInv c s.pg) (i : Instr) :
    ∀ r, (applyWith c i s).response = some r → ResponseInv c r := by
  cases i with
  | setfreq => exact responseInv_completeSetter c (fun _ => checkSetfreq_position) _ s
  | setatt => exact responseInv_completeSetter c (fun _ => checkSetatt_position) _ s
  | setar | setdr | setsr | setrr => exact responseInv_completeSetter c (fun _ => checkRate_position) _ s
  | setsl => exact responseInv_completeSetter c (fun _ => checkSetsl_position) _ s
  | pgkeyon | egkeyon | egkeyoff =>
    rintro _ ⟨⟩
    exact responseInv_okWith (Nat.two_pow_pos _)
  | getphase =>
    rintro _ ⟨⟩
    exact responseInv_okWith (lt_dataBits_of_lt_pmod hpg.acc_lt)
  | getenv =>
    rintro _ ⟨⟩
    exact responseInv_okWith (lt_dataBits_of_le_maxAtt (Nat.min_le_left _ _))

/-! ### The phase generator's registers -/

theorem increment_lt (c : Cfg) (fnum block multiple d : Nat) : increment c fnum block multiple d < c.pmod := by
  have hpos : (0 : Int) < c.pmod := by exact_mod_cast c.pmod_pos
  have hlt := Int.emod_lt_of_pos (doubledIncrement c fnum block multiple d / 2) hpos
  rw [increment, Int.toNat_lt (Int.emod_nonneg _ hpos.ne')]
  exact hlt

/-- What SETFREQ writes in range meets the invariant: the registers hold their operands without loss (R24, R130, R131). -/
theorem phaseInv_writeFrequency {c : Cfg} {fnum block multiple d : Nat} (hf : fnum ≤ 1023) (hb : block ≤ 7)
    (hm : multiple ≤ 15) (hd : d < c.dtRows) {p : PhaseRegs} (h : PhaseInv c p) :
    PhaseInv c (writeFrequency c fnum block multiple d p) := by
  have hfnum : (BitVec.ofNat 10 fnum).toNat = fnum := by rw [BitVec.toNat_ofNat]; omega
  have hblock : (BitVec.ofNat 3 block).toNat = block := by rw [BitVec.toNat_ofNat]; omega
  have hmult : (BitVec.ofNat 4 multiple).toNat = multiple := by rw [BitVec.toNat_ofNat]; omega
  constructor
  case acc_lt => exact h.acc_lt
  case inc_lt => exact increment_lt c fnum block multiple d
  case dt_lt => exact hd
  case ksn_eq =>
    have hksn := PhaseGenerator.keyScaleNumber_le hf hb
    rw [writeFrequency, hfnum, hblock, BitVec.toNat_ofNat, ← Setters.keyScaleNumber_eq_div hf]
    omega
  case inc_eq => rw [writeFrequency, hfnum, hblock, hmult]

/-- Another ACC in range changes nothing of the invariant. -/
theorem PhaseInv.with_acc {c : Cfg} {p : PhaseRegs} (h : PhaseInv c p) {acc : Nat} (hacc : acc < c.pmod) :
    PhaseInv c { p with acc := acc } :=
  ⟨hacc, h.inc_lt, h.dt_lt, h.ksn_eq, h.inc_eq⟩

/-- Every command keeps the phase generator's part, under every configuration. -/
theorem phaseInv_applyWith {c : Cfg} {s : State} (h : PhaseInv c s.pg) (i : Instr) : PhaseInv c (applyWith c i s).pg := by
  cases i with
  | setfreq fnum block multiple d =>
    rcases completeSetter_cases (checkSetfreq c fnum block multiple d)
      (State.mapPhase (writeFrequency c fnum block multiple d)) s with ⟨k, _, hraise⟩ | ⟨hcheck, hwrite⟩
    · rw [applyWith, setfreq, hraise]
      exact h
    · obtain ⟨hf, hb, hm, hd⟩ := (checkSetfreq_none_iff c fnum block multiple d).mp hcheck
      rw [applyWith, setfreq, hwrite]
      exact phaseInv_writeFrequency hf hb hm hd h
  | pgkeyon => exact h.with_acc c.pmod_pos
  | getphase => exact h.with_acc (Nat.mod_lt _ c.pmod_pos)
  | setatt | setar | setdr | setsl | setsr | setrr | egkeyon | egkeyoff | getenv =>
    rw [applyWith_pg_of_envelope rfl]
    exact h

/-! ### The envelope generator's registers -/

section Position

variable {c : Cfg} {e : EnvRegs}

/-- Any stage but Damp, with a level in range that is full silence in Idle. -/
theorem EnvInv.with_level (h : EnvInv c e) {st : Stage} {l : Nat} (hl : l ≤ c.lmax) (hidle : st = .idle → l = c.lmax)
    (hdamp : st ≠ .damp) : EnvInv c { e with stage := st, level := l, dampCnt := 0 } :=
  ⟨hl, hidle, fun hst => absurd hst hdamp, fun hst => absurd hst hdamp, fun _ => rfl, h.sl_le, h.kslAtt_mem⟩

/-- Damp at full silence, with samples left to count. -/
theorem EnvInv.with_damp (h : EnvInv c e) {d : Nat} (hpos : 1 ≤ d) (hle : d ≤ c.dampTicks) :
    EnvInv c { e with stage := .damp, level := c.lmax, dampCnt := d } :=
  ⟨le_rfl, fun _ => rfl, fun _ => rfl, fun _ => ⟨hpos, hle⟩, fun hst => absurd rfl hst, h.sl_le, h.kslAtt_mem⟩

theorem envInv_keyOnEnv (h : EnvInv c e) : EnvInv c (keyOnEnv c e) := by
  by_cases hsilent : e.level = c.lmax ∨ c.dampTicks = 0
  · rw [EnvelopeGenerator.keyOnEnv_of_silent hsilent]
    exact h.with_level le_rfl (fun _ => rfl) (by decide)
  · obtain ⟨hsounding, hticks⟩ := not_or.mp hsilent
    rw [EnvelopeGenerator.keyOnEnv_of_sounding hsounding hticks]
    exact h.with_damp (Nat.one_le_iff_ne_zero.mpr hticks) le_rfl

theorem envInv_keyOffEnv (h : EnvInv c e) : EnvInv c (keyOffEnv e) := by
  by_cases hidle : e.stage = .idle
  · rw [EnvelopeGenerator.keyOffEnv_of_idle hidle]
    exact h
  · rw [EnvelopeGenerator.keyOffEnv_of_not_idle hidle]
    exact h.with_level h.level_le (fun hst => by cases hst) (by decide)

theorem envInv_dampSample (h : EnvInv c e) (hstage : e.stage = .damp) : EnvInv c (dampSample e) := by
  obtain ⟨_, hle⟩ := h.damp_counts hstage
  by_cases hlast : e.dampCnt - 1 = 0
  · rw [dampSample, if_pos hlast, hlast]
    exact h.with_level h.level_le (fun hst => by cases hst) (by decide)
  · have hdamp := h.with_damp (d := e.dampCnt - 1) (Nat.one_le_iff_ne_zero.mpr hlast) (by omega)
    rw [← h.damp_silent hstage] at hdamp
    rw [dampSample, if_neg hlast]
    exact hdamp

/-- A sample of Decay keeps the level in range, for SL is (R31 (c), (g), R176). -/
theorem envInv_decaySample (h : EnvInv c e) : EnvInv c (decaySample c e) := by
  have hsl : e.sl <<< c.envFracBits ≤ c.lmax := by
    rw [Nat.shiftLeft_eq]
    exact Nat.mul_le_mul_right _ h.sl_le
  refine h.with_level (max_le h.level_le ((min_le_right _ _).trans hsl)) (fun hst => ?_) ?_
  · split at hst <;> cases hst
  · split <;> decide

/-- A stage that ends in Idle exactly at full silence is silent in Idle. -/
theorem eq_of_ite_idle {p : Prop} [Decidable p] {st : Stage} (hst : st ≠ .idle) (h : (if p then .idle else st) = Stage.idle) :
    p := by
  by_contra hp
  rw [if_neg hp] at h
  exact hst h

/-- Every sample keeps the envelope generator's part, under every configuration. -/
theorem envInv_advanceEnv (h : EnvInv c e) : EnvInv c (advanceEnv c e) := by
  cases hstage : e.stage with
  | idle =>
    rw [EnvelopeGenerator.advanceEnv_of_idle c hstage]
    exact h.with_level h.level_le h.idle_silent (by rw [hstage]; decide)
  | damp =>
    rw [EnvelopeGenerator.advanceEnv_of_damp c hstage]
    exact envInv_dampSample h hstage
  | attack =>
    rw [EnvelopeGenerator.advanceEnv_of_attack c hstage]
    refine h.with_level ((Nat.sub_le _ _).trans h.level_le) (fun hst => ?_) ?_
    · split at hst <;> cases hst
    · split <;> decide
  | decay =>
    rw [EnvelopeGenerator.advanceEnv_of_decay c hstage]
    exact envInv_decaySample h
  | sustain =>
    rw [EnvelopeGenerator.advanceEnv_of_sustain c hstage]
    exact h.with_level (min_le_right _ _) (eq_of_ite_idle (by decide)) (by split <;> decide)
  | release =>
    rw [EnvelopeGenerator.advanceEnv_of_release c hstage]
    exact h.with_level (min_le_right _ _) (eq_of_ite_idle (by decide)) (by split <;> decide)

/-- The invariant says nothing of the rates but what their registers' type says (R31 (h)). -/
theorem EnvInv.with_rates (h : EnvInv c e) (ar dr sr rr : BitVec 6) :
    EnvInv c { e with ar := ar, dr := dr, sr := sr, rr := rr } :=
  ⟨h.level_le, h.idle_silent, h.damp_silent, h.damp_counts, h.damp_only, h.sl_le, h.kslAtt_mem⟩

end Position

/-- An envelope setter keeps the invariant if its write does, given that its check passed. -/
theorem envInv_completeSetter {c : Cfg} {s : State} (h : EnvInv c s.eg) {o : Option (BitVec 3)} {f : EnvRegs → EnvRegs}
    (hf : o = none → EnvInv c (f s.eg)) : EnvInv c (completeSetter o (State.mapEnv f) s).eg := by
  rcases completeSetter_cases o (State.mapEnv f) s with ⟨k, _, hraise⟩ | ⟨hcheck, hwrite⟩
  · rw [hraise]
    exact h
  · rw [hwrite]
    exact hf hcheck

/-- Every command keeps the envelope generator's part, under every well-formed configuration. -/
theorem envInv_applyWith {c : Cfg} (hc : c.Wf) {s : State} (h : EnvInv c s.eg) (i : Instr) :
    EnvInv c (applyWith c i s).eg := by
  cases i with
  | setatt fnum block ksl =>
    refine envInv_completeSetter h fun hcheck => ?_
    obtain ⟨hf, hb, hk⟩ := (checkSetatt_none_iff fnum block ksl).mp hcheck
    exact ⟨h.level_le, h.idle_silent, h.damp_silent, h.damp_counts, h.damp_only, h.sl_le,
      ksl, hk, block, hb, fnum, hf, rfl⟩
  | setsl sl =>
    refine envInv_completeSetter h fun hcheck => ?_
    have hsl := hc.slMap_le sl ((checkSetsl_none_iff sl).mp hcheck)
    exact ⟨h.level_le, h.idle_silent, h.damp_silent, h.damp_counts, h.damp_only, hsl, h.kslAtt_mem⟩
  | setar | setdr | setsr | setrr => exact envInv_completeSetter h fun _ => h.with_rates _ _ _ _
  | egkeyon => exact envInv_keyOnEnv h
  | egkeyoff => exact envInv_keyOffEnv h
  | getenv => exact envInv_advanceEnv h
  | setfreq | pgkeyon | getphase =>
    rw [applyWith_eg_of_phase rfl]
    exact h

/-! ### Reset -/

/-- With all operands 0 the increment is 0 (R32). -/
theorem increment_zero {c : Cfg} (hc : c.Wf) : increment c 0 0 0 0 = 0 := by
  rw [Setters.increment_of_no_detune hc (by decide) (by decide), Setters.baseIncrement_eq]
  simp

theorem phaseInv_reset {c : Cfg} (hc : c.Wf) : PhaseInv c PhaseRegs.reset :=
  ⟨c.pmod_pos, c.pmod_pos, Nat.lt_of_lt_of_le (by decide) hc.dtRows_ge, rfl, (increment_zero hc).symm⟩

theorem envInv_reset {c : Cfg} (hc : c.Wf) : EnvInv c (EnvRegs.reset c) :=
  ⟨le_rfl, fun _ => rfl, fun h => by (cases h), fun h => by (cases h), fun _ => rfl, hc.slMap_le 0 (by decide),
    0, by decide, 0, by decide, 0, by decide, (hc.kslAttFn_off 0 (by decide) 0 (by decide)).symm⟩

/-- The reset registers meet the invariant, whatever is to be presented. -/
theorem inv_of_reset {c : Cfg} (hc : c.Wf) {s : State} (hpg : s.pg = PhaseRegs.reset) (heg : s.eg = EnvRegs.reset c)
    (hresponse : s.response = none) : Inv c s := by
  rw [inv_iff, hpg, heg, hresponse]
  exact ⟨phaseInv_reset hc, envInv_reset hc, fun r hr => by cases hr⟩

/-- Settles O52: the reset state written out. -/
theorem resetState : Obligations.ResetState := by
  unfold Obligations.ResetState
  rfl

/-- Settles O55: `inv_of_reset` at the reset state. -/
theorem invHoldsAtReset : Obligations.InvHoldsAtReset := by
  unfold Obligations.InvHoldsAtReset
  exact ⟨inv_of_reset Config.cfg_wf rfl rfl rfl, fun c hc => inv_of_reset hc rfl rfl rfl⟩

/-- Settles O53: at operands 0 the tables give what the reset registers hold; ACC is PGKEYON's. -/
theorem zeroSettersGiveResetRegisters : Obligations.ZeroSettersGiveResetRegisters := by
  unfold Obligations.ZeroSettersGiveResetRegisters
  intro c s hc
  have hrow : 0 < c.dtRows := Nat.lt_of_lt_of_le (by decide) hc.dtRows_ge
  have hsetfreq : applyWith c (.setfreq 0 0 0 0) s = returnOk 0 (s.mapPhase (writeFrequency c 0 0 0 0)) :=
    PhaseGenerator.setfreq_of_legal (by decide) (by decide) (by decide) hrow s
  have hatt : c.kslAttFn 0 0 0 = 0 := hc.kslAttFn_off 0 (by decide) 0 (by decide)
  rw [applyAll_cons, hsetfreq]
  constructor
  · show ({ writeFrequency c 0 0 0 0 s.pg with acc := 0 } : PhaseRegs) = PhaseRegs.reset
    rw [writeFrequency, increment_zero hc]
    rfl
  · show ({ s.eg with kslAtt := c.kslAttFn 0 0 0, ar := 0, dr := 0, sl := c.slMap 0, sr := 0, rr := 0 } : EnvRegs) = _
    rw [hatt]
    rfl

/-- Settles O54: the meaning of GETPHASE and of GETENV in Idle, at the reset registers. -/
theorem outputsOfResetState : Obligations.OutputsOfResetState := by
  unfold Obligations.OutputsOfResetState
  intro a b d ha hb
  have hacc : (0 + Config.cfg.vibInc 0 a b) % 2 ^ Config.cfg.phaseBits = Config.cfg.vibInc 0 a b := by
    rw [Nat.zero_add]
    exact Nat.mod_eq_of_lt (Config.cfg_wf.vibInc_lt 0 (Cfg.pmod_pos _) a ha b hb)
  obtain ⟨_, hgetenv⟩ := EnvelopeGenerator.getenvInIdleHoldsSilence a b d State.reset rfl
  refine ⟨_, _, PhaseGenerator.getphaseReturnsPreAdvancePhase a b d State.reset, rfl, hacc, ?_, hgetenv rfl, rfl, rfl⟩
  rintro rfl
  exact hacc.trans (Config.cfg_wf.vibInc_depth_zero 0 (Cfg.pmod_pos _) b hb)

/-! ### Steps -/

/-- Settles O57: each part is kept. -/
theorem commandsKeepInvUnderAnyConfig : Obligations.CommandsKeepInvUnderAnyConfig := by
  unfold Obligations.CommandsKeepInvUnderAnyConfig
  intro c i s hc h
  obtain ⟨hpg, heg, _⟩ := (inv_iff c s).mp h
  exact (inv_iff c _).mpr ⟨phaseInv_applyWith hpg i, envInv_applyWith hc heg i, responseInv_applyWith hpg i⟩

/-- The invariant says nothing of the inputs. -/
theorem inv_with_inputs {c : Cfg} {s : State} (h : Inv c s) (l : List Input) : Inv c { s with inputs := l } :=
  (inv_iff c _).mpr ((inv_iff c s).mp h)

/-- A step with nothing presented keeps the registers and returns nothing. -/
theorem inv_awaitCommand {c : Cfg} {s : State} (h : Inv c s) : Inv c (awaitCommand s) := by
  obtain ⟨hpg, heg, _⟩ := (inv_iff c s).mp h
  exact (inv_iff c _).mpr ⟨hpg, heg, fun r hr => by cases hr⟩

/-- Settles O56: a step waits, resets or runs a command, and each keeps the invariant. -/
theorem stepKeepsInv : Obligations.StepKeepsInv := by
  unfold Obligations.StepKeepsInv
  intro s t h hstep
  rcases step_cases hstep with ⟨_, rfl⟩ | ⟨rest, _, rfl⟩ | ⟨w, rest, i, _, _, rfl⟩
  · exact inv_awaitCommand h
  · exact inv_of_reset Config.cfg_wf rfl rfl rfl
  · exact commandsKeepInvUnderAnyConfig Config.cfg i _ Config.cfg_wf (inv_with_inputs h rest)

/-- Settles O47: a step on a word that decodes is the command's meaning. -/
theorem stepRunsDecodedCommand : Obligations.StepRunsDecodedCommand := by
  unfold Obligations.StepRunsDecodedCommand
  intro s w rest i hinputs hw
  rw [step_command hinputs hw, exec_eq]

/-- Settles O49: the two steps that are no command's. -/
theorem stepWithoutCommand : Obligations.StepWithoutCommand := by
  unfold Obligations.StepWithoutCommand
  exact ⟨fun s hinputs => step_nil hinputs, fun s rest hinputs => step_reset hinputs⟩

/-- A step stops exactly if the next input is a word that the decoder rejects (R77). -/
theorem step_stops_iff (s : State) :
    (∀ t, step s ≠ .next t) ↔ ∃ w rest e, s.inputs = .command w :: rest ∧ decode w = .error e := by
  constructor
  · intro hstop
    match hin : s.inputs with
    | [] => exact absurd (step_nil hin) (hstop _)
    | .reset :: rest => exact absurd (step_reset hin) (hstop _)
    | .command w :: rest =>
      match hw : decode w with
      | .ok i => exact absurd (step_command hin hw) (hstop _)
      | .error e => exact ⟨w, rest, e, rfl, hw⟩
  · rintro ⟨w, rest, e, hin, hw⟩ t ht
    rw [step_illegal hin hw] at ht
    cases ht

/-- Settles O48: the decoder rejects exactly the words that match no row. -/
theorem stepStopsOnlyOnIllegalWord : Obligations.StepStopsOnlyOnIllegalWord := by
  unfold Obligations.StepStopsOnlyOnIllegalWord
  intro s
  rw [step_stops_iff]
  constructor
  · constructor
    · rintro ⟨w, rest, e, hin, hw⟩
      exact ⟨w, rest, hin, (Encoding.decode_rejects_iff w).mp ⟨e, hw⟩⟩
    · rintro ⟨w, rest, hin, hrows⟩
      obtain ⟨e, hw⟩ := (Encoding.decode_rejects_iff w).mpr hrows
      exact ⟨w, rest, e, hin, hw⟩
  · rintro ⟨w, rest, e, hin, hw⟩
    exact ⟨e, step_illegal hin hw⟩

/-! ### Runs -/

/-- Every step takes one input, if there is one (R58). -/
theorem step_inputs {s t : State} (h : step s = .next t) : t.inputs = s.inputs.drop 1 := by
  rcases step_cases h with ⟨hin, rfl⟩ | ⟨rest, hin, rfl⟩ | ⟨w, rest, i, hin, _, rfl⟩
  · rw [await_inputs, hin]
    rfl
  · rw [assertReset_inputs, hin]
    rfl
  · rw [applyWith_inputs, hin]
    rfl

/-- A legal word stops no step. -/
theorem exists_step_of_legal {s : State} (h : LegalInputs s) : ∃ t, step s = .next t := by
  by_contra hstop
  obtain ⟨w, rest, e, hin, hw⟩ := (step_stops_iff s).mp (not_exists.mp hstop)
  obtain ⟨i, hi⟩ := h w (hin ▸ List.mem_cons_self ..)
  rw [hw] at hi
  cases hi

theorem legalInputs_of_drop {s t : State} {n : Nat} (h : LegalInputs s) (ht : t.inputs = s.inputs.drop n) :
    LegalInputs t :=
  fun w hw => h w (List.mem_of_mem_drop (ht ▸ hw))

/-- Settles O51, by induction on the number of steps: the next state meets the premises again. -/
theorem legalInputsNeverStop : Obligations.LegalInputsNeverStop := by
  unfold Obligations.LegalInputsNeverStop
  intro n
  induction n with
  | zero => exact fun s hinv hlegal => ⟨s, run_zero s, hinv, hlegal, rfl⟩
  | succ n ih =>
    intro s hinv hlegal
    obtain ⟨u, hu⟩ := exists_step_of_legal hlegal
    have hinputs := step_inputs hu
    obtain ⟨t, hrun, htinv, htlegal, htinputs⟩ := ih u (stepKeepsInv s u hinv hu) (legalInputs_of_drop hlegal hinputs)
    refine ⟨t, (run_next hu).trans hrun, htinv, htlegal, ?_⟩
    rw [htinputs, hinputs, List.drop_drop, Nat.add_comm]

/-- Settles O50, by induction on the commands: each step runs the command that its word encodes. -/
theorem runIsCommandSequence : Obligations.RunIsCommandSequence := by
  unfold Obligations.RunIsCommandSequence
  intro is
  induction is with
  | nil =>
    intro s rest _ hinputs
    have hs : { s with inputs := rest } = s := by rw [← show s.inputs = rest from hinputs]
    rw [applyAll_nil, hs]
    exact run_zero s
  | cons i is ih =>
    intro s rest hwf hinputs
    have hstep := step_command hinputs (Encoding.decodeOfEncode i (hwf i (List.mem_cons_self ..)))
    rw [List.length_cons, run_next hstep, ih _ rest (fun j hj => hwf j (List.mem_cons_of_mem _ hj)) (applyWith_inputs ..),
      applyAll_cons, ← applyWith_with_inputs]

end Sys2Proof.Invariants
end
